-- ==== Sys2Proof/Word.lean ====
section
/-! DEFINITION. Word.lean: the widths the spec fixes (00_scope.md R9, R11). -/

namespace Sys2Proof

/-- A byte (R11). -/
abbrev Byte := BitVec 8

/-- A register of the CTRKS: 32 bits (R9). -/
abbrev Word := BitVec 32

/-- A block index: 64 bits (R9). -/
abbrev Index := BitVec 64

/-- A 16-byte block: a counter block or a keystream block (R9). -/
abbrev Block := Vector Byte 16

end Sys2Proof
end

