-- ==== Sys2Proof/Syntax.lean ====
section
/-! DEFINITION. Syntax.lean: the CTRKS command set (00_scope.md R2, 30_encoding.md R92). -/

namespace Sys2Proof

/-- The eight commands. No command has an operand field (30_encoding.md R91): every operand is a register. -/
inductive Instr where
  | nop     -- no operation (R114)
  | kdf     -- derive KEY from the password (R118)
  | setkey  -- validate a host-written KEY (R120)
  | ctr     -- raw CTR keystream XOR (R145)
  | ctre    -- framed encrypt (R147)
  | ctrd    -- framed decrypt (R149)
  | ksgen   -- one keystream block into KS (R151)
  | zero    -- clear the secret registers (R121)
deriving DecidableEq, Repr, Inhabited

end Sys2Proof
end

