-- ==== Sys2Proof/Config.lean ====
section
/-! DEFINITION. Config.lean: the implementation parameters (00_scope.md R8), the block cipher (R6, R7), the types the
free values have, and the free values themselves, which have no body. -/

namespace Sys2Proof

/-! ## The block cipher -/

/-- The source's opaque KeySchedule (00_scope.md R7). No rule looks inside it. It is held as a byte string, which can
write down any schedule value of any cipher (log entry 3). -/
structure KeySchedule where
  bytes : List Byte
deriving DecidableEq, Repr, Inhabited

/-- The pair BC of 00_scope.md R7: `expandKey` is called with 16, 24 or 32 bytes only, `encryptBlock` with a schedule
`expandKey` gave (R6). The model assumes nothing else of them. -/
structure BlockCipher where
  expandKey    : List Byte → KeySchedule
  encryptBlock : Block → KeySchedule → Block

/-- The OPEN parameter `BC.expand_key` (00_scope.md R8). -/
opaque Config.expandKey : List Byte → KeySchedule

/-- The OPEN parameter `BC.encrypt_block` (00_scope.md R8). -/
opaque Config.encryptBlock : Block → KeySchedule → Block

/-- The block cipher the machine runs with. -/
def Config.bc : BlockCipher := ⟨Config.expandKey, Config.encryptBlock⟩

/-! ## Parameters -/

/-- `CTR_BYTE_ORDER` of 00_scope.md R8: the byte order inside each 32-bit half of the counter. -/
inductive ByteOrder where
  | le | be
deriving DecidableEq, Repr

/-- `KDF_SCHED_SRC` of 00_scope.md R8: which password bytes the KDF expands. -/
inductive KdfSchedSrc where
  | full | first16
deriving DecidableEq, Repr

/-- The parameters of 00_scope.md R8 but BC. `bufExp` gives BUF_BYTES as a power of two from 64 to 524288, and
`baseIndex` gives BASE as a multiple of 2^20, so that every value of this type is one R8 allows (log entry 7). -/
structure Params where
  bufExp       : Fin 14
  ctrByteOrder : ByteOrder
  kdfSchedSrc  : KdfSchedSrc
  baseIndex    : Nat
deriving DecidableEq, Repr

/-- BUF_BYTES (00_scope.md R8). -/
def Params.bufBytes (p : Params) : Nat := 2 ^ (6 + p.bufExp.val)

/-- BASE (00_scope.md R8). -/
def Params.base (p : Params) : Nat := 0x100000 * p.baseIndex

/-- The values this edition takes (00_scope.md R8): BUF_BYTES = 65536, LE, FULL. BASE is OPEN there; 0 is a DESIGN
CHOICE (log entry 8). -/
def Config.edition : Params := ⟨10, .le, .full, 0⟩

/-! ## The engine's latches -/

/-- `seq.phase` (10_state.md R39). -/
inductive Phase where
  | frame | blocks | finish
deriving DecidableEq, Repr, Inhabited

/-- The engine's latches (10_state.md R39). -/
structure Latches where
  op    : Instr
  phase : Phase
  src   : Word
  dst   : Word
  len   : Word
  b0    : Index
  sched : KeySchedule
deriving DecidableEq, Repr, Inhabited

/-! ## Free values -/

/-- The n-th draw of latches no rule gives a value: those a command does not use (40_sequencer.md R107), and all of
them once they are meaningless (R110, 70_reset_and_hazards.md R190; 93_implementation_defined.md I23). -/
opaque Config.freeLatches : Nat → Latches

/-- What the BUF byte at an offset holds after the n-th power-up while nothing has written it: a draw, fixed once
drawn (20_memory.md R62; 93_implementation_defined.md I10). -/
opaque Config.powerUpByte : Nat → Nat → Byte

/-- The n-th draw of the bytes a host BUF read returns while BUSY = 1 (20_memory.md R69;
93_implementation_defined.md I11). -/
opaque Config.busyRead : Nat → Word

end Sys2Proof
end

