-- ==== Sys2Proof/WellFormed.lean ====
section
/-! DEFINITION. WellFormed.lean: what a well-formed command word and a well-formed command are (30_encoding.md R90, R93). -/

namespace Sys2Proof

/-- Format C: the two fields of a command word (30_encoding.md R90). -/
structure CmdFields where
  rsv : BitVec 28
  opc : BitVec 4
deriving DecidableEq, Repr

/-- RSV must be 0 and OPC must be one of the eight opcodes (30_encoding.md R90, R92, R93). -/
def CmdFields.wf (f : CmdFields) : Bool := f.rsv == 0#28 && f.opc.toNat < 8

/-- A command has no operand (30_encoding.md R91), so each of the eight is well formed. -/
def Instr.wf (i : Instr) : Bool :=
  match i with
  | .nop | .kdf | .setkey | .ctr | .ctre | .ctrd | .ksgen | .zero => true

end Sys2Proof
end

