-- ==== Sys2Proof/Decode.lean ====
section
/-! DEFINITION. Decode.lean: the byte orders of 00_scope.md R12, the total decoder of command words (30_encoding.md R90 to
R94, R96) and the encoder. -/

namespace Sys2Proof

/-! ## Word-to-byte conversions -/

/-- `le32(w)` (00_scope.md R12). -/
def le32 (w : Word) : List Byte :=
  [w.extractLsb' 0 8, w.extractLsb' 8 8, w.extractLsb' 16 8, w.extractLsb' 24 8]

/-- `be32(w)` (00_scope.md R12). -/
def be32 (w : Word) : List Byte :=
  [w.extractLsb' 24 8, w.extractLsb' 16 8, w.extractLsb' 8 8, w.extractLsb' 0 8]

/-- `from_le32(s)` (00_scope.md R12). Of a shorter sequence it gives the zero-extended little-endian number. -/
def fromLe32 (s : List Byte) : Word :=
  s.getD 3 0#8 ++ s.getD 2 0#8 ++ s.getD 1 0#8 ++ s.getD 0 0#8

/-! ## Decoding -/

/-- Why a byte string is no command. -/
inductive DecodeError where
  | reservedBits    -- RSV is not 0 (30_encoding.md R93)
  | reservedOpcode  -- OPC is 8 or more (30_encoding.md R93)
  | wrongLength     -- not exactly one 32-bit word (30_encoding.md R90)
deriving DecidableEq, Repr

/-- The fields of a command word (30_encoding.md R90). -/
def cmdFields (w : Word) : CmdFields := ⟨w.extractLsb' 4 28, w.extractLsb' 0 4⟩

/-- The opcode map (30_encoding.md R92). -/
def decodeOpcode (opc : BitVec 4) : Option Instr :=
  if opc = 0x0#4 then some .nop
  else if opc = 0x1#4 then some .kdf
  else if opc = 0x2#4 then some .setkey
  else if opc = 0x3#4 then some .ctr
  else if opc = 0x4#4 then some .ctre
  else if opc = 0x5#4 then some .ctrd
  else if opc = 0x6#4 then some .ksgen
  else if opc = 0x7#4 then some .zero
  else none

/-- The decoder of a word written to CMD (30_encoding.md R92 to R94). -/
def decode (w : Word) : Except DecodeError Instr :=
  if (cmdFields w).rsv ≠ 0#28 then .error .reservedBits
  else
    match decodeOpcode (cmdFields w).opc with
    | some i => .ok i
    | none   => .error .reservedOpcode

/-- The decoder of bytes as the bus carries them: one little-endian word (20_memory.md R63), nothing shorter or longer
(30_encoding.md R90, R96). -/
def decodeBytes (s : List Byte) : Except DecodeError Instr :=
  if s.length = 4 then decode (fromLe32 s) else .error .wrongLength

/-! ## Encoding -/

/-- OPC of a command (30_encoding.md R92). -/
def opcode (i : Instr) : BitVec 4 :=
  match i with
  | .nop    => 0x0#4
  | .kdf    => 0x1#4
  | .setkey => 0x2#4
  | .ctr    => 0x3#4
  | .ctre   => 0x4#4
  | .ctrd   => 0x5#4
  | .ksgen  => 0x6#4
  | .zero   => 0x7#4

/-- The command word: RSV = 0, then OPC (30_encoding.md R90). -/
def encode (i : Instr) : Word := 0#28 ++ opcode i

/-- The command the decoder reads from a row of the opcode table: the row's `nbits` bits of `w`, laid out as the bus
carries a word. -/
def decodeTableWord (nbits w : Nat) : Option Instr :=
  let v := w % 2 ^ nbits
  if v < 2 ^ 32 then (decodeBytes (le32 (BitVec.ofNat 32 v))).toOption else none

end Sys2Proof
end

