-- ==== Sys2Proof/Machine/State.lean ====
section
/-! DEFINITION. Machine/State.lean: everything the spec gives the machine (10_state.md), the turns the outside world can take,
the reasons a step can stop, and reset (70_reset_and_hazards.md R190). -/

namespace Sys2Proof.Machine

/-! ## The host's side of the bus -/

/-- One host access's kind, width and data (00_scope.md R14, 20_memory.md R64). -/
inductive BusOp where
  | read8 | read16 | read32
  | write8 (v : Byte)
  | write16 (v : BitVec 16)
  | write32 (v : Word)
deriving DecidableEq, Repr

/-- One host access at an address of the host bus (20_memory.md R60). -/
structure BusAccess where
  addr : Nat
  op   : BusOp
deriving DecidableEq, Repr

/-- A turn that is taken between two others: a host access, an engine step, the platform's reset, a power-up
(00_scope.md R5, 70_reset_and_hazards.md R190, R203; log entries 1 and 12). -/
inductive Input where
  | access (a : BusAccess)
  | engine
  | reset
  | powerUp
deriving DecidableEq, Repr

/-! ## Registers and memory -/

/-- STATUS (10_state.md R24). Its reserved bits have no storage: they are RAZ/WI. -/
structure Status where
  busy     : Bool
  done     : Bool
  err      : Bool
  ovr      : Bool
  keyValid : Bool
  klen     : BitVec 2
  errcode  : BitVec 4
deriving DecidableEq, Repr

/-- The written bytes of BUF, by offset (20_memory.md R61, R62): offsets strictly rising. An offset that is not listed
holds a byte nothing has written (log entry 4). -/
abbrev Memory := List Host.Cell

/-- The CTRKS: the registers of 10_state.md R23 to R37, the latches of R39, BUF, and the model's own fields (the last
four). -/
structure State where
  params   : Params
  status   : Status
  ie       : Bool            -- CTRL.IE (R25)
  keybits  : Word
  len      : Word
  src      : Word
  dst      : Word
  pwdlen   : BitVec 6        -- PWDLEN bits 5:0 (R29)
  ctrLo    : Word
  ctrHi    : Word
  nonce0   : Word
  nonce1   : Word
  progIdx  : Word
  progCnt  : Word
  pwd      : Vector Word 8
  key      : Vector Word 8
  ks       : Vector Word 4
  seq      : Latches
  buf      : Memory
  hostData : Option Word     -- what the host's latest access returned (log entry 9)
  inputs   : List Input      -- the coming turns, the next one first (log entry 1)
  draws    : Nat             -- how many free values were drawn (log entry 5)
  powerUps : Nat             -- which power-up the unwritten BUF bytes date from (log entry 4)
deriving DecidableEq, Repr

/-! ## How a step can stop -/

/-- The one fault. -/
inductive Fault where
  /-- A host access that the window does not define (20_memory.md R65): reported to the host, changes no state. Raised
  by a host access's turn, never by a command or an engine step. The run stops here where the host could go on: safe (log entry 15). -/
  | busError (offset : Nat) (width : Nat) (isWrite : Bool)
deriving DecidableEq, Repr

/-- Nothing is refused: the one constructor is the host's own. -/
inductive Refusal where
  /-- An instruction that has no meaning yet, by its mnemonic. No arm raises it. Safe. -/
  | notModelled (mnemonic : String)
deriving DecidableEq, Repr

/-! ## Reset -/

/-- The machine right after the reset that follows power-up (70_reset_and_hazards.md R190, R192). The latches are
meaningless: a free value (log entry 6). No byte of BUF is written. The model's own fields and BASE are DESIGN CHOICEs
(log entries 1, 4, 5, 8, 9). -/
def State.reset : State where
  params   := Config.edition
  status   := ⟨false, false, false, false, false, 0#2, 0#4⟩
  ie       := false
  keybits  := 0#32
  len      := 0#32
  src      := 0#32
  dst      := 0#32
  pwdlen   := 0#6
  ctrLo    := 0#32
  ctrHi    := 0#32
  nonce0   := 0#32
  nonce1   := 0#32
  progIdx  := 0#32
  progCnt  := 0#32
  pwd      := Vector.replicate 8 0#32
  key      := Vector.replicate 8 0#32
  ks       := Vector.replicate 4 0#32
  seq      := Config.freeLatches 0
  buf      := []
  hostData := none
  inputs   := []
  draws    := 1
  powerUps := 0

end Sys2Proof.Machine
end

