-- ==== Sys2Proof/Machine/Flags.lean ====
section
/-! DEFINITION. Machine/Flags.lean: STATUS as a word, its write-1-to-clear bits, KLEN and ERRCODE values, the interrupt line
(10_state.md R24, R25; 60_exceptions.md R176, R184). -/

namespace Sys2Proof.Machine

/-- The command errors (60_exceptions.md R176). -/
inductive ErrCode where
  | illegal | keysize | nokey | malformed | range | ctrovf
deriving DecidableEq, Repr

/-- ERRCODE (60_exceptions.md R176). -/
def ErrCode.code (e : ErrCode) : BitVec 4 :=
  match e with
  | .illegal   => 1#4
  | .keysize   => 2#4
  | .nokey     => 3#4
  | .malformed => 4#4
  | .range     => 5#4
  | .ctrovf    => 6#4

/-- STATUS as software reads it: bits 31:12 and 7 are 0 (10_state.md R24). -/
def Status.toWord (st : Status) : Word :=
  0#20 ++ st.errcode ++ 0#1 ++ st.klen ++ BitVec.ofBool st.keyValid ++ BitVec.ofBool st.ovr
    ++ BitVec.ofBool st.err ++ BitVec.ofBool st.done ++ BitVec.ofBool st.busy

/-- A host write of `w` to STATUS (10_state.md R24): bits 1, 2 and 3 clear DONE, ERR with ERRCODE, and OVR. -/
def Status.writeOneToClear (st : Status) (w : Word) : Status :=
  { st with
    done    := st.done && !w.getLsbD 1
    err     := st.err && !w.getLsbD 2
    errcode := if w.getLsbD 2 then 0#4 else st.errcode
    ovr     := st.ovr && !w.getLsbD 3 }

/-- `klen_code(KL)` (41_kdf.md): 1, 2 and 3 for 16, 24 and 32 bytes. Of any other length, which no command reaches, it
is 0 (log entry 13). -/
def klenCode (kl : Nat) : BitVec 2 :=
  if kl = 16 then 1#2 else if kl = 24 then 2#2 else if kl = 32 then 3#2 else 0#2

/-- The live key length that KLEN stands for (10_state.md R24, 43_keystream.md): 0 is no key. -/
def klenBytes (klen : BitVec 2) : Nat :=
  if klen = 1#2 then 16 else if klen = 2#2 then 24 else if klen = 3#2 then 32 else 0

/-- The interrupt line (60_exceptions.md R184). -/
def State.irq (s : State) : Bool := s.ie && s.status.done

end Sys2Proof.Machine
end

