-- ==== Sys2Proof/Machine/Operands.lean ====
section
/-! DEFINITION. Machine/Operands.lean: the byte views of the register files (10_state.md R36), the counter's byte order
(00_scope.md R12), and the operands commands read from registers (30_encoding.md R91). -/

namespace Sys2Proof.Machine

/-! ## Byte views (10_state.md R36) -/

/-- Byte `k` of a word, 0 the least significant. -/
def wordByte (w : Word) (k : Nat) : Byte := w.extractLsb' (8 * k) 8

/-- `PWDBYTES[k]`. -/
def State.pwdByte (s : State) (k : Nat) : Byte := wordByte (s.pwd.toList.getD (k / 4) 0#32) (k % 4)

/-- `KEYBYTES[k]`. -/
def State.keyByte (s : State) (k : Nat) : Byte := wordByte (s.key.toList.getD (k / 4) 0#32) (k % 4)

/-- `KSBYTES[k]`. -/
def State.ksByte (s : State) (k : Nat) : Byte := wordByte (s.ks.toList.getD (k / 4) 0#32) (k % 4)

/-- `NONCEBYTES` (10_state.md R31, R36). -/
def State.nonceBytes (s : State) : List Byte := le32 s.nonce0 ++ le32 s.nonce1

/-- Word `j` of the register file whose byte `k` is `f k`. -/
def wordOfBytes (f : Nat → Byte) (j : Nat) : Word :=
  f (4 * j + 3) ++ f (4 * j + 2) ++ f (4 * j + 1) ++ f (4 * j)

/-- The register file of `n` words whose byte `k` is `f k`. -/
def fileOfBytes (n : Nat) (f : Nat → Byte) : Vector Word n := Vector.ofFn fun j => wordOfBytes f j.val

/-! ## The counter's byte order -/

/-- `enc32(w)` (00_scope.md R12). -/
def enc32 (o : ByteOrder) (w : Word) : List Byte :=
  match o with
  | .le => le32 w
  | .be => be32 w

/-! ## Operands -/

/-- Key-size legality (41_kdf.md R115). -/
def legalKeyBits (kb : Word) : Bool := kb == 128#32 || kb == 192#32 || kb == 256#32

/-- `KL = KB / 8`, the key length KEYBITS asks for (41_kdf.md). -/
def State.wantedKeyLen (s : State) : Nat := s.keybits.toNat / 8

/-- The key in use: the first KLEN bytes of KEY (10_state.md R33). -/
def State.liveKey (s : State) : List Byte := (List.range (klenBytes s.status.klen)).map s.keyByte

/-- `CTR64` (10_state.md R30). -/
def State.ctr64 (s : State) : Nat := 2 ^ 32 * s.ctrHi.toNat + s.ctrLo.toNat

/-- `InRange(a, n)` (43_keystream.md R138), exact. -/
def inRange (p : Params) (a n : Nat) : Bool := a + n ≤ p.bufBytes

end Sys2Proof.Machine
end

