-- ==== Sys2Proof/Machine/Ops.lean ====
section
/-! DEFINITION. Machine/Ops.lean: the operations every command shares: BUF, the accept and its latch, taking a command error
and its acknowledge, completion, reset. -/

namespace Sys2Proof.Machine

/-! ## BUF -/

/-- The byte written last at offset `a`, or none if nothing has written it. -/
def Memory.find (m : Memory) (a : Nat) : Option Byte :=
  match m with
  | []          => none
  | (k, b) :: t => if k = a then some b else Memory.find t a

/-- Write one byte; the list stays sorted. -/
def Memory.write (m : Memory) (a : Nat) (b : Byte) : Memory :=
  match m with
  | []          => [(a, b)]
  | (k, c) :: t =>
    if a < k then (a, b) :: (k, c) :: t
    else if a = k then (a, b) :: t
    else (k, c) :: Memory.write t a b

/-- Write `bs[k]` at offset `a + k`, in increasing `k` (20_memory.md R67). -/
def Memory.writeBytes (m : Memory) (a : Nat) (bs : List Byte) : Memory :=
  match bs with
  | []      => m
  | b :: bs => Memory.writeBytes (Memory.write m a b) (a + 1) bs

/-- The canonical form: offsets strictly rising. No entry equals what an unlisted offset gives, since `Memory.find`
gives an unlisted offset no value (log entry 4). -/
abbrev Memory.wf (m : Memory) : Prop := m.Pairwise (fun x y => x.1 < y.1)

/-- One byte of BUF: a byte nothing has written is a draw, fixed once drawn (20_memory.md R62). -/
def State.readByte (s : State) (a : Nat) : Byte := (Memory.find s.buf a).getD (Config.powerUpByte s.powerUps a)

/-- `MemRead(a, n)` (20_memory.md R67). -/
def State.memRead (s : State) (a n : Nat) : List Byte := (List.range n).map fun k => s.readByte (a + k)

/-- `MemWrite(a, n, bs)` with `n` the length of `bs` (20_memory.md R67). -/
def State.memWrite (s : State) (a : Nat) (bs : List Byte) : State := { s with buf := Memory.writeBytes s.buf a bs }

/-! ## Accept -/

/-- What every accept does first (40_sequencer.md R106). -/
def State.beginAccept (s : State) : State :=
  { s with
    status  := { s.status with done := false, err := false, errcode := 0#4 }
    progIdx := 0#32
    progCnt := 0#32 }

/-- `raise Error(code)` (60_exceptions.md R180), KEYSIZE with its side effect (41_kdf.md R119). This is the CTRKS's
whole exception entry: nothing else is saved and control goes nowhere (R170, R179). -/
def State.raiseError (s : State) (e : ErrCode) : State :=
  match e with
  | .keysize =>
    { s with status := { s.status with err := true, errcode := e.code, done := true, keyValid := false, klen := 0#2 } }
  | .illegal | .nokey | .malformed | .range | .ctrovf =>
    { s with status := { s.status with err := true, errcode := e.code, done := true } }

/-- The host's acknowledge by a STATUS write, the analogue of a return from exception (60_exceptions.md R182,
10_state.md R24). The other way to acknowledge is the next accept's `beginAccept`. -/
def State.acknowledge (s : State) (w : Word) : State := { s with status := s.status.writeOneToClear w }

/-- A CMD write while BUSY = 1 (40_sequencer.md R112). -/
def State.dropCommand (s : State) : State := { s with status := { s.status with ovr := true } }

/-- `Latch_op()` (40_sequencer.md R107) with the command's latches and block count. The latches a command does not use
come from this state's draw, so the count of draws advances. -/
def State.latch (s : State) (seq : Latches) (n : Nat) : State :=
  { s with
    seq     := seq
    progCnt := BitVec.ofNat 32 n
    progIdx := 0#32
    status  := { s.status with busy := true }
    draws   := s.draws + 1 }

/-- The latches of a command whose rule names no latch values but its phase (40_sequencer.md R107). -/
def State.plainLatches (s : State) (op : Instr) : Latches :=
  { Config.freeLatches s.draws with op := op, phase := .finish }

/-- A write of a command's word to CMD: dropped while BUSY = 1 (40_sequencer.md R112), else the accept of R106, with
the command's checks (none: all pass) and its latch (log entry 2). -/
def acceptCommand (check : State → Option ErrCode) (latch : State → State) (s : State) :
    Host.Outcome State Fault Refusal :=
  if s.status.busy then .next s.dropCommand
  else
    match check s.beginAccept with
    | some e => .next (s.beginAccept.raiseError e)
    | none   => .next (latch s.beginAccept)

/-! ## Completion and reset -/

/-- `complete()` (40_sequencer.md R110): the latches become meaningless, so they are drawn anew. -/
def State.complete (s : State) : State :=
  { s with
    status := { s.status with busy := false, done := true }
    seq    := Config.freeLatches s.draws
    draws  := s.draws + 1 }

/-- The platform's reset (70_reset_and_hazards.md R190, R191): every register at its reset value, the latches
meaningless, BUF kept. The parameters and the outside world's coming turns are no registers and stay. -/
def State.assertReset (s : State) : State :=
  { State.reset with
    params   := s.params
    seq      := Config.freeLatches s.draws
    buf      := s.buf
    inputs   := s.inputs
    draws    := s.draws + 1
    powerUps := s.powerUps }

/-- Power-up and the reset that follows it (20_memory.md R62, 70_reset_and_hazards.md R190): every BUF byte is a new
draw. -/
def State.powerUp (s : State) : State := { s.assertReset with buf := [], powerUps := s.powerUps + 1 }

end Sys2Proof.Machine
end

