-- ==== Sys2Proof/Machine/Key.lean ====
section
/-! DEFINITION. Machine/Key.lean: the key family KDF, SETKEY, ZERO (41_kdf.md). -/

namespace Sys2Proof.Machine

/-! ## The derivation (R116, R117) -/

/-- `P[k]`: the password block for a key of `kl` bytes (R116). -/
def State.passwordByte (s : State) (kl k : Nat) : Byte :=
  if k < min s.pwdlen.toNat kl then s.pwdByte k else 0x00#8

/-- The schedule the KDF encrypts with (R117). -/
def kdfSchedule (bc : BlockCipher) (src : KdfSchedSrc) (kl : Nat) (p : Nat → Byte) : KeySchedule :=
  match src with
  | .full    => bc.expandKey ((List.range kl).map p)
  | .first16 => bc.expandKey ((List.range 16).map p)

/-- `T`: the 16-byte intermediate key (R117). -/
def intermediateKey (bc : BlockCipher) (src : KdfSchedSrc) (kl : Nat) (p : Nat → Byte) : Block :=
  bc.encryptBlock (Vector.ofFn fun j => p j.val) (kdfSchedule bc src kl p)

/-- `K = T ∥ T[0..KL-16)` (R117). -/
def stretchKey (t : Block) (kl : Nat) : List Byte := t.toList ++ t.toList.take (kl - 16)

/-- `KEYBYTES[k]` as KDF leaves it: `K[k]` below the key length, 0 above it (R118). -/
def derivedKeyByte (bc : BlockCipher) (s : State) (k : Nat) : Byte :=
  let kl := s.wantedKeyLen
  if k < kl then (stretchKey (intermediateKey bc s.params.kdfSchedSrc kl (s.passwordByte kl)) kl).getD k 0x00#8
  else 0x00#8

/-! ## KDF (R118) -/

/-- KEYSIZE if KEYBITS is illegal (R115, R118). -/
def checkKdf (s : State) : Option ErrCode := if legalKeyBits s.keybits then none else some .keysize

/-- First phase FINISH, N = 0 (R118). -/
def latchKdf (s : State) : State := s.latch (s.plainLatches .kdf) 0

/-- KDF's word written to CMD (R118). -/
def execKdf (s : State) : Host.Outcome State Fault Refusal := acceptCommand checkKdf latchKdf s

/-- KDF has no frame step. -/
def frameKdf (s : State) : State := s

/-- `Finish_KDF` (R118). -/
def finishKdf (bc : BlockCipher) (s : State) : State :=
  { s with
    key    := fileOfBytes 8 (derivedKeyByte bc s)
    status := { s.status with klen := klenCode s.wantedKeyLen, keyValid := true } }

/-! ## SETKEY (R120) -/

/-- KEYSIZE if KEYBITS is illegal (R115, R120). -/
def checkSetkey (s : State) : Option ErrCode := if legalKeyBits s.keybits then none else some .keysize

/-- First phase FINISH, N = 0 (R120). -/
def latchSetkey (s : State) : State := s.latch (s.plainLatches .setkey) 0

/-- SETKEY's word written to CMD (R120). -/
def execSetkey (s : State) : Host.Outcome State Fault Refusal := acceptCommand checkSetkey latchSetkey s

/-- SETKEY has no frame step. -/
def frameSetkey (s : State) : State := s

/-- `Finish_SETKEY` (R120). -/
def finishSetkey (s : State) : State :=
  { s with status := { s.status with klen := klenCode s.wantedKeyLen, keyValid := true } }

/-! ## ZERO (R121) -/

/-- ZERO has no accept check (R121). -/
def checkZero (_ : State) : Option ErrCode := none

/-- First phase FINISH, N = 0 (R121). -/
def latchZero (s : State) : State := s.latch (s.plainLatches .zero) 0

/-- ZERO's word written to CMD (R121). -/
def execZero (s : State) : Host.Outcome State Fault Refusal := acceptCommand checkZero latchZero s

/-- ZERO has no frame step. -/
def frameZero (s : State) : State := s

/-- `Finish_ZERO` (R121). -/
def finishZero (s : State) : State :=
  { s with
    pwd    := Vector.replicate 8 0#32
    key    := Vector.replicate 8 0#32
    ks     := Vector.replicate 4 0#32
    pwdlen := 0#6
    status := { s.status with keyValid := false, klen := 0#2 } }

end Sys2Proof.Machine
end

