-- ==== Sys2Proof/Machine/Counter.lean ====
section
/-! DEFINITION. Machine/Counter.lean: the counter-block builder and the counter overflow handler (42_counter.md). Indices are
exact numbers; only the halves are words (R123, R124). -/

namespace Sys2Proof.Machine

/-- `hi(b)` (R124). One formula serves both directions (R133). -/
def indexHi (b : Nat) : Word := BitVec.ofNat 32 (b / 2 ^ 32)

/-- `lo(b)` (R124). -/
def indexLo (b : Nat) : Word := BitVec.ofNat 32 (b % 2 ^ 32)

/-- `CB(n, b)` as a byte sequence (R125). -/
def counterBytes (o : ByteOrder) (nonce : List Byte) (b : Nat) : List Byte :=
  nonce ++ enc32 o (indexHi b) ++ enc32 o (indexLo b)

/-- `CB(n, b)` as the block the cipher is given (R125). -/
def counterBlock (o : ByteOrder) (nonce : List Byte) (b : Nat) : Block :=
  Vector.ofFn fun j => (counterBytes o nonce b).getD j.val 0x00#8

/-- `N = ceil(L / 16)` (R131). -/
def blockCount (l : Nat) : Nat := (l + 15) / 16

/-- `blen(i)` of a command of `l` bytes and `n` blocks (R132). -/
def blockLen (l n i : Nat) : Nat := if i + 1 < n then 16 else (l - 1) % 16 + 1

/-- `CtrOverflow(b0, N)` (R129). -/
def ctrOverflow (b0 n : Nat) : Bool := 0 < n ∧ 2 ^ 64 ≤ b0 + n - 1

/-- `CTR64 <- (b0 + N) mod 2^64` (R130). -/
def State.writeNextIndex (s : State) (b : Nat) : State :=
  { s with
    ctrLo := BitVec.ofNat 32 (b % 2 ^ 32)
    ctrHi := BitVec.ofNat 32 (b % 2 ^ 64 / 2 ^ 32) }

end Sys2Proof.Machine
end

