-- ==== Sys2Proof/Machine/Keystream.lean ====
section
/-! DEFINITION. Machine/Keystream.lean: the keystream family CTR, CTRE, CTRD, KSGEN (43_keystream.md). -/

namespace Sys2Proof.Machine

/-! ## Common parts -/

/-- `KSB(i)` (R135). -/
def State.keystreamBlock (bc : BlockCipher) (s : State) (i : Nat) : Block :=
  bc.encryptBlock (counterBlock s.params.ctrByteOrder s.nonceBytes (s.seq.b0.toNat + i)) s.seq.sched

/-- The XOR-fold of an input block with the leading bytes of a keystream block (R139): lanes past the input's length
are discarded. -/
def xorFold (inp : List Byte) (ks : Block) : List Byte := List.zipWith (· ^^^ ·) inp ks.toList

/-- `seq.sched` (R136). -/
def State.keySchedule (bc : BlockCipher) (s : State) : KeySchedule := bc.expandKey s.liveKey

/-- The key check (R137). -/
def State.noKey (s : State) : Bool := !s.status.keyValid

/-- `Block(i)` with `i = PROG_IDX` (R141): the input block is read whole before the output block is written. -/
def State.blockStep (bc : BlockCipher) (s : State) : State :=
  let i := s.progIdx.toNat
  let m := blockLen s.seq.len.toNat s.progCnt.toNat i
  let inp := s.memRead (s.seq.src.toNat + 16 * i) m
  { s.memWrite (s.seq.dst.toNat + 16 * i) (xorFold inp (s.keystreamBlock bc i)) with
    progIdx := s.progIdx + 1#32 }

/-! ## CTR (R145) -/

/-- NOKEY, RANGE, CTROVF, in this order (R145, 60_exceptions.md R177). -/
def checkCtr (s : State) : Option ErrCode :=
  if s.noKey then some .nokey
  else if !inRange s.params s.src.toNat s.len.toNat || !inRange s.params s.dst.toNat s.len.toNat then some .range
  else if ctrOverflow s.ctr64 (blockCount s.len.toNat) then some .ctrovf
  else none

/-- First phase BLOCKS, from CTR64 (R145). -/
def latchCtr (bc : BlockCipher) (s : State) : State :=
  s.latch
    { op := .ctr, phase := .blocks, src := s.src, dst := s.dst, len := s.len, b0 := s.ctrHi ++ s.ctrLo,
      sched := s.keySchedule bc }
    (blockCount s.len.toNat)

/-- CTR's word written to CMD (R145). -/
def execCtr (s : State) : Host.Outcome State Fault Refusal := acceptCommand checkCtr (latchCtr Config.bc) s

/-- CTR has no frame step. -/
def frameCtr (s : State) : State := s

/-- `Finish_CTR` (R145, 42_counter.md R130). -/
def finishCtr (s : State) : State := s.writeNextIndex (s.seq.b0.toNat + s.progCnt.toNat)

/-! ## CTRE (R147) -/

/-- NOKEY, RANGE (R147). -/
def checkCtre (s : State) : Option ErrCode :=
  if s.noKey then some .nokey
  else if !inRange s.params s.src.toNat s.len.toNat || !inRange s.params s.dst.toNat (8 + s.len.toNat) then some .range
  else none

/-- First phase FRAME, the blocks' output after the 8 nonce bytes, from index 0 (R147). -/
def latchCtre (bc : BlockCipher) (s : State) : State :=
  s.latch
    { op := .ctre, phase := .frame, src := s.src, dst := s.dst + 8#32, len := s.len, b0 := 0#64,
      sched := s.keySchedule bc }
    (blockCount s.len.toNat)

/-- CTRE's word written to CMD (R147). -/
def execCtre (s : State) : Host.Outcome State Fault Refusal := acceptCommand checkCtre (latchCtre Config.bc) s

/-- `Frame_CTRE` (R147). -/
def frameCtre (s : State) : State := s.memWrite s.dst.toNat s.nonceBytes

/-- CTRE has no finish action (R147). -/
def finishCtre (s : State) : State := s

/-! ## CTRD (R149) -/

/-- NOKEY, MALFORMED, RANGE, in this order (R149). -/
def checkCtrd (s : State) : Option ErrCode :=
  if s.noKey then some .nokey
  else if s.len.toNat < 8 then some .malformed
  else if !inRange s.params s.src.toNat s.len.toNat || !inRange s.params s.dst.toNat (s.len.toNat - 8) then some .range
  else none

/-- First phase FRAME, the blocks' input after the 8 nonce bytes, from index 0 (R149). -/
def latchCtrd (bc : BlockCipher) (s : State) : State :=
  s.latch
    { op := .ctrd, phase := .frame, src := s.src + 8#32, dst := s.dst, len := s.len - 8#32, b0 := 0#64,
      sched := s.keySchedule bc }
    (blockCount (s.len.toNat - 8))

/-- CTRD's word written to CMD (R149). -/
def execCtrd (s : State) : Host.Outcome State Fault Refusal := acceptCommand checkCtrd (latchCtrd Config.bc) s

/-- `Frame_CTRD` (R149): `NONCEBYTES <- MemRead(SRC, 8)`. -/
def frameCtrd (s : State) : State :=
  { s with
    nonce0 := fromLe32 (s.memRead s.src.toNat 4)
    nonce1 := fromLe32 (s.memRead (s.src.toNat + 4) 4) }

/-- CTRD has no finish action (R149). -/
def finishCtrd (s : State) : State := s

/-! ## KSGEN (R151) -/

/-- NOKEY (R151). -/
def checkKsgen (s : State) : Option ErrCode := if s.noKey then some .nokey else none

/-- First phase FINISH, N = 0, index CTR64; the other latches are unspecified (R151, 40_sequencer.md R107). -/
def latchKsgen (bc : BlockCipher) (s : State) : State :=
  s.latch { s.plainLatches .ksgen with b0 := s.ctrHi ++ s.ctrLo, sched := s.keySchedule bc } 0

/-- KSGEN's word written to CMD (R151). -/
def execKsgen (s : State) : Host.Outcome State Fault Refusal := acceptCommand checkKsgen (latchKsgen Config.bc) s

/-- KSGEN has no frame step. -/
def frameKsgen (s : State) : State := s

/-- `Finish_KSGEN` (R151). -/
def finishKsgen (bc : BlockCipher) (s : State) : State :=
  { s with ks := fileOfBytes 4 fun k => (s.keystreamBlock bc 0).toList.getD k 0x00#8 }

end Sys2Proof.Machine
end

