-- ==== Sys2Proof/Machine/Sequencer.lean ====
section
/-! DEFINITION. Machine/Sequencer.lean: NOP (40_sequencer.md R114). -/

namespace Sys2Proof.Machine

/-- NOP has no accept check (R114). -/
def checkNop (_ : State) : Option ErrCode := none

/-- NOP's latch: first phase FINISH, N = 0 (R114). -/
def latchNop (s : State) : State := s.latch (s.plainLatches .nop) 0

/-- NOP's word written to CMD (R114). -/
def execNop (s : State) : Host.Outcome State Fault Refusal := acceptCommand checkNop latchNop s

/-- NOP has no frame step. -/
def frameNop (s : State) : State := s

/-- NOP has no finish action (R114). -/
def finishNop (s : State) : State := s

end Sys2Proof.Machine
end

