-- ==== Sys2Proof/Machine/Dispatch.lean ====
section
/-! DEFINITION. Machine/Dispatch.lean: what a write of a command's word to CMD does (40_sequencer.md R106, R112). -/

namespace Sys2Proof.Machine

def exec (i : Instr) (s : State) : Host.Outcome State Fault Refusal :=
  match i with
  | .nop => Sys2Proof.Machine.execNop s
  | .kdf => Sys2Proof.Machine.execKdf s
  | .setkey => Sys2Proof.Machine.execSetkey s
  | .ctr => Sys2Proof.Machine.execCtr s
  | .ctre => Sys2Proof.Machine.execCtre s
  | .ctrd => Sys2Proof.Machine.execCtrd s
  | .ksgen => Sys2Proof.Machine.execKsgen s
  | .zero => Sys2Proof.Machine.execZero s

end Sys2Proof.Machine
end

