-- ==== Sys2Proof/Machine/Engine.lean ====
section
/-! DEFINITION. Machine/Engine.lean: the engine's step (40_sequencer.md R108 to R110). -/

namespace Sys2Proof.Machine

/-- `Frame_op()` (40_sequencer.md R108). Only CTRE and CTRD have a FRAME phase; of the others, which never reach it,
there is nothing to do (log entry 13). -/
def frameOp (op : Instr) (s : State) : State :=
  match op with
  | .nop    => frameNop s
  | .kdf    => frameKdf s
  | .setkey => frameSetkey s
  | .ctr    => frameCtr s
  | .ctre   => frameCtre s
  | .ctrd   => frameCtrd s
  | .ksgen  => frameKsgen s
  | .zero   => frameZero s

/-- `Finish_op()` (40_sequencer.md R108). -/
def finishOp (bc : BlockCipher) (op : Instr) (s : State) : State :=
  match op with
  | .nop    => finishNop s
  | .kdf    => finishKdf bc s
  | .setkey => finishSetkey s
  | .ctr    => finishCtr s
  | .ctre   => finishCtre s
  | .ctrd   => finishCtrd s
  | .ksgen  => finishKsgen bc s
  | .zero   => finishZero s

/-- The FRAME step (40_sequencer.md R108). -/
def State.frameStep (s : State) : State :=
  { frameOp s.seq.op s with seq := { s.seq with phase := .blocks } }

/-- The FINISH step: the command's finish action, then completion (40_sequencer.md R108). -/
def State.finishStep (bc : BlockCipher) (s : State) : State := (finishOp bc s.seq.op s).complete

/-- The engine's one step while BUSY = 1 (40_sequencer.md R108), with a given cipher. -/
def State.engineStepWith (bc : BlockCipher) (s : State) : State :=
  match s.seq.phase with
  | .frame  => s.frameStep
  | .blocks => if s.progIdx < s.progCnt then s.blockStep bc else s.finishStep bc
  | .finish => s.finishStep bc

/-- A turn given to the engine: its step while BUSY = 1; while BUSY = 0 it has no step and the turn passes
(40_sequencer.md R108, log entry 1). -/
def engineTurn (s : State) : State := if s.status.busy then s.engineStepWith Config.bc else s

end Sys2Proof.Machine
end

