-- ==== Sys2Proof/Machine/Bus.lean ====
section
/-! DEFINITION. Machine/Bus.lean: the host's accesses (10_state.md R23 to R37, 20_memory.md R60 to R69, 40_sequencer.md R112,
R113) and the turns the outside world takes. -/

namespace Sys2Proof.Machine

/-! ## The register map -/

/-- The registers of the window (10_state.md R23). -/
inductive Reg where
  | cmd | status | ctrl | keybits | len | src | dst | pwdlen | ctrLo | ctrHi | nonce0 | nonce1 | progIdx | progCnt
  | pwd (j : Fin 8)
  | key (j : Fin 8)
  | ks (j : Fin 4)
  | id
  | reserved
deriving DecidableEq, Repr

/-- The register at word `k` of the window, at offset `4k` (10_state.md R23). -/
def regAt (k : Nat) : Reg :=
  if k = 0 then .cmd
  else if k = 1 then .status
  else if k = 2 then .ctrl
  else if k = 3 then .keybits
  else if k = 4 then .len
  else if k = 5 then .src
  else if k = 6 then .dst
  else if k = 7 then .pwdlen
  else if k = 8 then .ctrLo
  else if k = 9 then .ctrHi
  else if k = 10 then .nonce0
  else if k = 11 then .nonce1
  else if k = 12 then .progIdx
  else if k = 13 then .progCnt
  else if 16 ≤ k ∧ k < 24 then .pwd (Fin.ofNat 8 (k - 16))
  else if 24 ≤ k ∧ k < 32 then .key (Fin.ofNat 8 (k - 24))
  else if 32 ≤ k ∧ k < 36 then .ks (Fin.ofNat 4 (k - 32))
  else if k = 63 then .id
  else .reserved

/-- The value of ID (10_state.md R35). -/
def idValue : Word := 0x43545201#32

/-- What a host read of a register returns (10_state.md R23). It has no side effect (20_memory.md R68) and is the same
whatever BUSY is (40_sequencer.md R113). -/
def readReg (r : Reg) (s : State) : Word :=
  match r with
  | .cmd      => 0#32
  | .status   => s.status.toWord
  | .ctrl     => (BitVec.ofBool s.ie).setWidth 32
  | .keybits  => s.keybits
  | .len      => s.len
  | .src      => s.src
  | .dst      => s.dst
  | .pwdlen   => s.pwdlen.setWidth 32
  | .ctrLo    => s.ctrLo
  | .ctrHi    => s.ctrHi
  | .nonce0   => s.nonce0
  | .nonce1   => s.nonce1
  | .progIdx  => s.progIdx
  | .progCnt  => s.progCnt
  | .pwd j    => s.pwd[j]
  | .key j    => s.key[j]
  | .ks j     => s.ks[j]
  | .id       => idValue
  | .reserved => 0#32

/-- An operand register's write takes effect only while BUSY = 0 (40_sequencer.md R113). -/
def ifIdle (s t : State) : State := if s.status.busy then s else t

/-- What a host write of `w` to a register but CMD does (10_state.md R23 to R37, 40_sequencer.md R113). A write of CMD
is `writeCmd`. -/
def writeReg (r : Reg) (w : Word) (s : State) : State :=
  match r with
  | .status   => s.acknowledge w
  | .ctrl     => { s with ie := w.getLsbD 0 }
  | .keybits  => ifIdle s { s with keybits := w }
  | .len      => ifIdle s { s with len := w }
  | .src      => ifIdle s { s with src := w }
  | .dst      => ifIdle s { s with dst := w }
  | .pwdlen   => ifIdle s { s with pwdlen := w.extractLsb' 0 6 }
  | .ctrLo    => ifIdle s { s with ctrLo := w }
  | .ctrHi    => ifIdle s { s with ctrHi := w }
  | .nonce0   => ifIdle s { s with nonce0 := w }
  | .nonce1   => ifIdle s { s with nonce1 := w }
  | .pwd j    => ifIdle s { s with pwd := s.pwd.set j w }
  | .key j    =>
    ifIdle s { s with key := s.key.set j w, status := { s.status with keyValid := false, klen := 0#2 } }
  | .cmd | .progIdx | .progCnt | .ks _ | .id | .reserved => s

/-- A host write of `w` to CMD: dropped and not decoded while BUSY = 1 (40_sequencer.md R112), else decoded and
accepted (R106), an illegal word with the error ILLEGAL (30_encoding.md R93). -/
def writeCmd (w : Word) (s : State) : Host.Outcome State Fault Refusal :=
  if s.status.busy then .next s.dropCommand
  else
    match decode w with
    | .ok i    => exec i s
    | .error _ => .next (s.beginAccept.raiseError .illegal)

/-! ## The window -/

/-- Bytes an access moves (20_memory.md R64). -/
def BusOp.bytes (op : BusOp) : Nat :=
  match op with
  | .read8  | .write8 _  => 1
  | .read16 | .write16 _ => 2
  | .read32 | .write32 _ => 4

/-- Whether an access writes. -/
def BusOp.isWrite (op : BusOp) : Bool :=
  match op with
  | .read8 | .read16 | .read32          => false
  | .write8 _ | .write16 _ | .write32 _ => true

/-- The offset in the CTRKS window of an address of the host bus, if it lies there: the window is the 2^20 bytes from BASE,
which is a multiple of 2^20 (20_memory.md R60, 00_scope.md R8). -/
def windowOffset (p : Params) (addr : Nat) : Option Nat :=
  if addr / 0x100000 = p.baseIndex then some (addr % 0x100000) else none

/-- What an access that is no bus error asks for. -/
inductive HostAction where
  | readReg (r : Reg)
  | writeReg (r : Reg) (w : Word)
  | readBuf (a n : Nat)
  | writeBuf (a : Nat) (bs : List Byte)
deriving DecidableEq, Repr

/-- A register access is 32 bits wide (20_memory.md R64, R65). -/
def regAction (r : Reg) (op : BusOp) : Option HostAction :=
  match op with
  | .read32    => some (.readReg r)
  | .write32 w => some (.writeReg r w)
  | .read8 | .read16 | .write8 _ | .write16 _ => none

/-- A BUF access moves little-endian bytes (20_memory.md R63). -/
def bufAction (a : Nat) (op : BusOp) : HostAction :=
  match op with
  | .read8     => .readBuf a 1
  | .read16    => .readBuf a 2
  | .read32    => .readBuf a 4
  | .write8 v  => .writeBuf a [v]
  | .write16 v => .writeBuf a [v.extractLsb' 0 8, v.extractLsb' 8 8]
  | .write32 v => .writeBuf a (le32 v)

/-- The action of an access at a window offset; none is a bus error: a reserved offset, a misaligned access, a narrow
register access, an access past BUF (20_memory.md R60, R64, R65). -/
def decodeAccess (p : Params) (op : BusOp) (off : Nat) : Option HostAction :=
  if off < 0x100 then
    if off % 4 = 0 then regAction (regAt (off / 4)) op else none
  else if 0x80000 ≤ off ∧ off + op.bytes ≤ 0x80000 + p.bufBytes ∧ off % op.bytes = 0 then
    some (bufAction (off - 0x80000) op)
  else none

/-- A value of `n` bytes out of a draw of 32 bits (20_memory.md R69). -/
def drawOfWidth (n : Nat) (d : Word) : Word := if n = 1 then d &&& 0xFF#32 else if n = 2 then d &&& 0xFFFF#32 else d

/-- A host BUF read: the bytes while BUSY = 0 (20_memory.md R63), a fresh draw while BUSY = 1 (R69). -/
def readBuf (a n : Nat) (s : State) : State :=
  if s.status.busy then { s with hostData := some (drawOfWidth n (Config.busyRead s.draws)), draws := s.draws + 1 }
  else { s with hostData := some (fromLe32 (s.memRead a n)) }

/-- A host BUF write: dropped while BUSY = 1 (20_memory.md R69). -/
def writeBuf (a : Nat) (bs : List Byte) (s : State) : State := ifIdle s (s.memWrite a bs)

/-- One action, as one step (20_memory.md R66). A write returns no data (log entry 9). -/
def runAction (act : HostAction) (s : State) : Host.Outcome State Fault Refusal :=
  match act with
  | .readReg r       => .next { s with hostData := some (readReg r s) }
  | .writeReg .cmd w => writeCmd w { s with hostData := none }
  | .writeReg r w    => .next (writeReg r w { s with hostData := none })
  | .readBuf a n     => .next (readBuf a n s)
  | .writeBuf a bs   => .next (writeBuf a bs { s with hostData := none })

/-- One host access. An access outside the window is not the CTRKS's (20_memory.md R60, log entry 10). A bus error is
reported to the host as the fault of R65, whatever BUSY is: that a misaligned BUF access, or one past BUF, while BUSY = 1 is a
bus error and not an access R69 drops or draws is a DESIGN CHOICE (log entry 17). -/
def hostAccess (acc : BusAccess) (s : State) : Host.Outcome State Fault Refusal :=
  match windowOffset s.params acc.addr with
  | none     => .next { s with hostData := none }
  | some off =>
    match decodeAccess s.params acc.op off with
    | none     => .fault (.busError off (8 * acc.op.bytes) acc.op.isWrite)
    | some act => runAction act s

/-! ## Turns -/

/-- One turn of the outside world or of the engine (00_scope.md R5, 70_reset_and_hazards.md R190). -/
def takeInput (i : Input) (s : State) : Host.Outcome State Fault Refusal :=
  match i with
  | .access acc => hostAccess acc s
  | .engine     => .next (engineTurn s)
  | .reset      => .next s.assertReset
  | .powerUp    => .next s.powerUp

/-- The host's write of `w` to CMD (30_encoding.md R97). -/
def cmdWrite (p : Params) (w : Word) : Input := .access ⟨p.base, .write32 w⟩

/-- `s` with a write of the word `w` to CMD as the next turn and the engine IDLE, as an accept needs. -/
def placeCommand (s : State) (nbits w : Nat) : State :=
  { s with
    inputs := cmdWrite s.params (BitVec.ofNat 32 (w % 2 ^ nbits)) :: s.inputs
    status := { s.status with busy := false } }

end Sys2Proof.Machine
end

