-- ==== Sys2Proof/Machine/Step.lean ====
section
/-! DEFINITION. Machine/Step.lean: one step of the machine (00_scope.md R5). -/

namespace Sys2Proof.Machine

/-- One step: the next turn in the list; once the list is used up, the engine's (40_sequencer.md R111, log entry 1). The list's order is the host's program order (20_memory.md R71, log entry 14). -/
def step (s : State) : Host.Outcome State Fault Refusal :=
  match s.inputs with
  | []        => .next (engineTurn s)
  | i :: rest => takeInput i { s with inputs := rest }

/-- `s` with the command word `w` as the host's next access, so that the next step decodes and runs it: the CTRKS
fetches no program, a command is the word written to CMD (10_state.md R22, 20_memory.md R76; log entry 11). -/
def State.withFetchWord (s : State) (nbits w : Nat) : State := placeCommand s nbits w

end Sys2Proof.Machine
end

