-- ==== Sys2Proof/Machine/HostAsm.lean ====
section
/-! DEFINITION. Machine/HostAsm.lean: the host assembly language (30_encoding.md R97, R98) as the bus accesses it stands for,
and the nonce layout the host uses (43_keystream.md R140). The machine does not depend on this file. -/

namespace Sys2Proof.Machine

/-! ## Statements (R97) -/

/-- The machine statements, each one host access (R97). -/
inductive Stmt where
  | wr (r : Reg) (v : Word)
  | rd (r : Reg)
  | wrw (a : Nat) (v : Word)
  | wrh (a : Nat) (v : BitVec 16)
  | wrb (a : Nat) (v : Byte)
  | rdw (a : Nat)
  | rdh (a : Nat)
  | rdb (a : Nat)
deriving DecidableEq, Repr

/-- `off(NAME)`, the register's offset in the window (10_state.md R23). A reserved word has no name; its entry is the
first one's offset (log entry 16). -/
def regOffset (r : Reg) : Nat :=
  match r with
  | .cmd      => 0x000
  | .status   => 0x004
  | .ctrl     => 0x008
  | .keybits  => 0x00C
  | .len      => 0x010
  | .src      => 0x014
  | .dst      => 0x018
  | .pwdlen   => 0x01C
  | .ctrLo    => 0x020
  | .ctrHi    => 0x024
  | .nonce0   => 0x028
  | .nonce1   => 0x02C
  | .progIdx  => 0x030
  | .progCnt  => 0x034
  | .pwd j    => 0x040 + 4 * j.val
  | .key j    => 0x060 + 4 * j.val
  | .ks j     => 0x080 + 4 * j.val
  | .id       => 0x0FC
  | .reserved => 0x038

/-- The access of a statement (R97). -/
def stmtAccess (p : Params) (s : Stmt) : BusAccess :=
  match s with
  | .wr r v  => ⟨p.base + regOffset r, .write32 v⟩
  | .rd r    => ⟨p.base + regOffset r, .read32⟩
  | .wrw a v => ⟨p.base + (0x80000 + a), .write32 v⟩
  | .wrh a v => ⟨p.base + (0x80000 + a), .write16 v⟩
  | .wrb a v => ⟨p.base + (0x80000 + a), .write8 v⟩
  | .rdw a   => ⟨p.base + (0x80000 + a), .read32⟩
  | .rdh a   => ⟨p.base + (0x80000 + a), .read16⟩
  | .rdb a   => ⟨p.base + (0x80000 + a), .read8⟩

/-! ## Pseudo-instructions (R98) -/

/-- Command mnemonics (R97) and the pseudo-instructions (R98). How often a poll reads is not fixed
(93_implementation_defined.md I25): `poll n` reads `n + 1` times (log entry 16). -/
inductive Pseudo where
  | command (i : Instr)
  | encrypt
  | decrypt
  | poll (n : Nat)
  | ack
  | setctr (v : Index)
  | setnonce (n : Vector Byte 8)
  | setpwd (p : List Byte)
  | setkeybytes (k : List Byte)
  | putbytes (a : Nat) (s : List Byte)
deriving DecidableEq, Repr

/-- The bounds R98 puts on the arguments. -/
def pseudoWf (q : Pseudo) : Bool :=
  match q with
  | .setpwd p      => p.length ≤ 32
  | .setkeybytes k => k.length == 16 || k.length == 24 || k.length == 32
  | .command _ | .encrypt | .decrypt | .poll _ | .ack | .setctr _ | .setnonce _ | .putbytes _ _ => true

/-- Word `j` of a byte sequence, missing bytes 0 (R98). -/
def seqWord (p : List Byte) (j : Nat) : Word := fromLe32 ((p.drop (4 * j)).take 4)

/-- The expansion of a pseudo-instruction (R98). -/
def expand (q : Pseudo) : List Stmt :=
  match q with
  | .command i     => [.wr .cmd (encode i)]
  | .encrypt       => [.wr .cmd (encode .ctr)]
  | .decrypt       => [.wr .cmd (encode .ctr)]
  | .poll n        => List.replicate (n + 1) (.rd .status)
  | .ack           => [.wr .status 0x0000000E#32]
  | .setctr v      => [.wr .ctrLo (v.extractLsb' 0 32), .wr .ctrHi (v.extractLsb' 32 32)]
  | .setnonce n    => [.wr .nonce0 (seqWord n.toList 0), .wr .nonce1 (seqWord n.toList 1)]
  | .setpwd p      =>
    (List.range ((p.length + 3) / 4)).map (fun j => .wr (.pwd (Fin.ofNat 8 j)) (seqWord p j))
      ++ [.wr .pwdlen (BitVec.ofNat 32 p.length)]
  | .setkeybytes k => (List.range (k.length / 4)).map fun j => .wr (.key (Fin.ofNat 8 j)) (seqWord k j)
  | .putbytes a s  => s.mapIdx fun k b => .wrb (a + k) b

/-! ## The written form (R97) -/

/-- A number, decimal or `0x` hexadecimal (R97). -/
def digitsValue (base : Nat) (acc : Nat) (cs : List Char) : Option Nat :=
  match cs with
  | []      => some acc
  | c :: cs =>
    let d := if c.isDigit then c.toNat - 48 else if 'a' ≤ c ∧ c ≤ 'f' then c.toNat - 87 else base
    if d < base then digitsValue base (base * acc + d) cs else none

/-- A number token (R97), already in lower case: that hexadecimal may be written in either case is a DESIGN CHOICE (log entry
16). -/
def parseNum (t : List Char) : Option Nat :=
  match t with
  | []                  => none
  | '0' :: 'x' :: c :: cs => digitsValue 16 0 (c :: cs)
  | c :: cs             => digitsValue 10 0 (c :: cs)

/-- The text before a comment, in lower case (R97), cut into tokens. `cur` is the token being read. R97 writes operands with a
comma between them and says no more of separators: that spaces, tabs and commas, in any number, all separate tokens alike, so
that a comma may be left out or doubled, is a DESIGN CHOICE (log entry 16). -/
def tokensFrom (cur : List Char) (cs : List Char) : List (List Char) :=
  let done := if cur.isEmpty then [] else [cur]
  match cs with
  | []      => done
  | c :: cs =>
    if c = ';' then done
    else if c = ' ' ∨ c = ',' ∨ c = '\t' then done ++ tokensFrom [] cs
    else tokensFrom (cur ++ [c.toLower]) cs

/-- The tokens of a line (R97; the separators are log entry 16's). -/
def tokens (line : List Char) : List (List Char) := tokensFrom [] line

/-- A numbered register's name: `stem` then one digit below `n`. -/
def parseNumbered (stem : List Char) (n : Nat) (t : List Char) : Option Nat :=
  if t.take stem.length = stem ∧ t.length = stem.length + 1 then
    (digitsValue 10 0 (t.drop stem.length)).bind fun k => if k < n then some k else none
  else none

/-- A register's name (10_state.md R23), in lower case. -/
def parseReg (t : List Char) : Option Reg :=
  if t = "cmd".toList then some .cmd
  else if t = "status".toList then some .status
  else if t = "ctrl".toList then some .ctrl
  else if t = "keybits".toList then some .keybits
  else if t = "len".toList then some .len
  else if t = "src".toList then some .src
  else if t = "dst".toList then some .dst
  else if t = "pwdlen".toList then some .pwdlen
  else if t = "ctr_lo".toList then some .ctrLo
  else if t = "ctr_hi".toList then some .ctrHi
  else if t = "nonce0".toList then some .nonce0
  else if t = "nonce1".toList then some .nonce1
  else if t = "prog_idx".toList then some .progIdx
  else if t = "prog_cnt".toList then some .progCnt
  else if t = "id".toList then some .id
  else
    match parseNumbered "pwd".toList 8 t, parseNumbered "key".toList 8 t, parseNumbered "ks".toList 4 t with
    | some k, _, _ => some (.pwd (Fin.ofNat 8 k))
    | _, some k, _ => some (.key (Fin.ofNat 8 k))
    | _, _, some k => some (.ks (Fin.ofNat 4 k))
    | _, _, _      => none

/-- A command's mnemonic (R97), in lower case. -/
def parseCommand (t : List Char) : Option Instr :=
  if t = "nop".toList then some .nop
  else if t = "kdf".toList then some .kdf
  else if t = "setkey".toList then some .setkey
  else if t = "ctr".toList then some .ctr
  else if t = "ctre".toList then some .ctre
  else if t = "ctrd".toList then some .ctrd
  else if t = "ksgen".toList then some .ksgen
  else if t = "zero".toList then some .zero
  else none

/-- A number that fits in `n` bits. -/
def fitted (n : Nat) (v : Nat) : Option (BitVec n) := if v < 2 ^ n then some (BitVec.ofNat n v) else none

/-- Number tokens as bytes. -/
def byteTokens (ts : List (List Char)) : Option (List Byte) := ts.mapM fun t => (parseNum t).bind (fitted 8)

/-- A statement with a mnemonic of its own, as its one-statement expansion; none if it is no such statement. A BUF offset that is
not a multiple of the access's width is a statement all the same, for the misaligned access, which is a bus error: R97 says only
that `a` is a multiple of 4 or even, so this is a DESIGN CHOICE (log entry 16). -/
def parseStmt (m : List Char) (args : List (List Char)) : Option Stmt :=
  match args with
  | [x] =>
    if m = "rd".toList then (parseReg x).map .rd
    else if m = "rdw".toList then (parseNum x).map .rdw
    else if m = "rdh".toList then (parseNum x).map .rdh
    else if m = "rdb".toList then (parseNum x).map .rdb
    else none
  | [x, y] =>
    if m = "wr".toList then (parseReg x).bind fun r => ((parseNum y).bind (fitted 32)).map (.wr r)
    else if m = "wrw".toList then (parseNum x).bind fun a => ((parseNum y).bind (fitted 32)).map (.wrw a)
    else if m = "wrh".toList then (parseNum x).bind fun a => ((parseNum y).bind (fitted 16)).map (.wrh a)
    else if m = "wrb".toList then (parseNum x).bind fun a => ((parseNum y).bind (fitted 8)).map (.wrb a)
    else none
  | _ => none

/-- A pseudo-instruction or a command mnemonic (R97, R98). `polls` is how many reads after its first a poll makes. -/
def parsePseudo (polls : Nat) (m : List Char) (args : List (List Char)) : Option Pseudo :=
  match args with
  | [] =>
    if m = "encrypt".toList then some .encrypt
    else if m = "decrypt".toList then some .decrypt
    else if m = "poll".toList then some (.poll polls)
    else if m = "ack".toList then some .ack
    else if m = "setpwd".toList then some (.setpwd [])
    else (parseCommand m).map .command
  | x :: xs =>
    if m = "setctr".toList ∧ xs = [] then ((parseNum x).bind (fitted 64)).map .setctr
    else if m = "setnonce".toList then
      (byteTokens (x :: xs)).bind fun bs => if h : bs.length = 8 then some (.setnonce ⟨bs.toArray, by simpa using h⟩) else none
    else if m = "setpwd".toList then (byteTokens (x :: xs)).map .setpwd
    else if m = "setkeybytes".toList then (byteTokens (x :: xs)).map .setkeybytes
    else if m = "putbytes".toList then (parseNum x).bind fun a => (byteTokens xs).map (.putbytes a)
    else none

/-- The accesses of one line of host assembly, in order (R97, R98); none if the line is no statement. A line with no token, blank or
only a comment, is no access at all: a DESIGN CHOICE (log entry 16). -/
def assembleLine (polls : Nat) (p : Params) (line : List Char) : Option (List BusAccess) :=
  match tokens line with
  | []        => some []
  | m :: args =>
    match parseStmt m args, parsePseudo polls m args with
    | some s, _    => some [stmtAccess p s]
    | none, some q => if pseudoWf q then some ((expand q).map (stmtAccess p)) else none
    | none, none   => none

/-! ## The host's nonce -/

/-- NONCE0 and NONCE1 of the layout the host should use (43_keystream.md R140): milliseconds within the second, a random
16-bit value, whole seconds. -/
def hostNonce (ms rnd : BitVec 16) (seconds : Nat) : Word × Word := (rnd ++ ms, BitVec.ofNat 32 seconds)

end Sys2Proof.Machine
end

