-- ==== Sys2Proof/Safety.lean ====
section
/-! DEFINITION. Safety.lean: the invariants the spec says the hardware keeps, and the end of a run. -/

namespace Sys2Proof.Machine

/-- The invariants of STATUS (10_state.md R24). The clause "ERR = 1 implies DONE = 1, unless the host has cleared DONE
alone" speaks of the host's past, so it is stated of the step that sets ERR, not here. -/
structure StatusInv (st : Status) : Prop where
  keyValid_iff : st.keyValid = true ↔ st.klen ≠ 0#2
  err_code     : st.err = true → st.errcode ≠ 0#4
  noErr_code   : st.err = false → st.errcode = 0#4
  code_known   : st.errcode.toNat ≤ 6
  busy_clear   : st.busy = true → st.done = false ∧ st.err = false

/-- What the accept checks establish of a command with blocks and what the engine's steps keep (43_keystream.md R138, R141;
42_counter.md R129, R131). -/
structure BlocksInv (s : State) : Prop where
  keyed    : s.status.keyValid = true
  count    : s.progCnt.toNat = blockCount s.seq.len.toNat
  srcRange : s.seq.src.toNat + s.seq.len.toNat ≤ s.params.bufBytes
  dstRange : s.seq.dst.toNat + s.seq.len.toNat ≤ s.params.bufBytes
  index    : s.seq.b0.toNat + s.progCnt.toNat ≤ 2 ^ 64

/-- What the latches of a running command are (40_sequencer.md R107, R108; the command rules). -/
def RunInv (s : State) : Prop :=
  match s.seq.op with
  | .nop | .zero   => s.seq.phase = .finish ∧ s.progCnt = 0#32
  | .kdf | .setkey => s.seq.phase = .finish ∧ s.progCnt = 0#32 ∧ legalKeyBits s.keybits = true
  | .ksgen         => s.seq.phase = .finish ∧ s.progCnt = 0#32 ∧ s.status.keyValid = true
  | .ctr           => s.seq.phase = .blocks ∧ BlocksInv s
  | .ctre          =>
    (s.seq.phase = .frame ∧ s.progIdx = 0#32 ∨ s.seq.phase = .blocks) ∧ BlocksInv s ∧ s.seq.b0 = 0#64
      ∧ s.seq.dst.toNat = s.dst.toNat + 8
  | .ctrd          =>
    (s.seq.phase = .frame ∧ s.progIdx = 0#32 ∨ s.seq.phase = .blocks) ∧ BlocksInv s ∧ s.seq.b0 = 0#64
      ∧ s.seq.src.toNat = s.src.toNat + 8

/-- The machine's invariant: STATUS as R24 says, PROG_IDX at most PROG_CNT at most 2^28 (10_state.md R22), BUF canonical and
inside BUF_BYTES (20_memory.md R67), a running command's latches as its accept left them. -/
structure Inv (s : State) : Prop where
  status   : StatusInv s.status
  progress : s.progIdx.toNat ≤ s.progCnt.toNat ∧ s.progCnt.toNat ≤ 2 ^ 28
  bufWf    : Memory.wf s.buf
  bufBound : ∀ c ∈ s.buf, c.1 < s.params.bufBytes
  running  : s.status.busy = true → RunInv s

/-! ## The end of a run (70_reset_and_hazards.md R204) -/

/-- Whether a turn is an access of the host. -/
def Input.isAccess (i : Input) : Bool :=
  match i with
  | .access _                  => true
  | .engine | .reset | .powerUp => false

/-- The end of a run: the host has performed its last access and BUSY = 0. Engine turns, a reset and a power-up may still
come: what a later reset would do is no part of the end. -/
def State.ended (s : State) : Prop := (∀ i ∈ s.inputs, i.isAccess = false) ∧ s.status.busy = false

/-- What is observed at the end of a run. -/
structure Observation where
  registers : List Word   -- as the host reads the 64 words of the register window, STATUS among them
  buf       : List Byte
deriving DecidableEq, Repr

/-- The register values, STATUS and the BUF bytes. -/
def State.observation (s : State) : Observation :=
  ⟨(List.range 64).map fun k => readReg (regAt k) s, s.memRead 0 s.params.bufBytes⟩

end Sys2Proof.Machine
end

