-- ==== Sys2Proof/Certificates/Slice0/Obligations.lean ====
section
/-! DEFINITION. Certificates/Slice0/Obligations.lean: the statements for the provers. Each docstring names the rule it
formalises. The helper definitions say in the statements' own terms what the rules say. What a statement says of the model's
own fields `hostData`, `inputs`, `draws` and `powerUps` is the model's choice (log entries 1, 4, 5, 9 and 12); the rules it names
are cited for the rest. -/

namespace Sys2Proof.Claims
open Sys2Proof.Machine

/-! ## What the statements are written with -/

/-- `t` is `e` but for the latches and the model's count of draws (log entries 5 and 6). -/
def agree (t e : State) : Prop := t = { e with seq := t.seq, draws := t.draws }

/-- `s` after an accept whose checks passed, with block count `n` (R106, R107). -/
def accepted (s : State) (n : Nat) : State :=
  { s with
    status  := { s.status with busy := true, done := false, err := false, errcode := 0#4 }
    progIdx := 0#32
    progCnt := BitVec.ofNat 32 n }

/-- `s` after an accepted command of `n` blocks completed, before the command's own effects are added (R106, R107,
R110). -/
def finished (s : State) (n : Nat) : State :=
  { s with
    status  := { s.status with busy := false, done := true, err := false, errcode := 0#4 }
    progIdx := BitVec.ofNat 32 n
    progCnt := BitVec.ofNat 32 n }

/-- `s` after an accept that raised the error of this code, other than KEYSIZE (R106, R180). -/
def failed (s : State) (code : BitVec 4) : State :=
  { s with
    status  := { s.status with done := true, err := true, errcode := code }
    progIdx := 0#32
    progCnt := 0#32 }

/-- `s` after an accept that raised KEYSIZE (R119, R180). -/
def failedKeysize (s : State) : State :=
  { s with
    status  := { s.status with done := true, err := true, errcode := 2#4, keyValid := false, klen := 0#2 }
    progIdx := 0#32
    progCnt := 0#32 }

/-- `k` turns of the engine. -/
def turns (k : Nat) (s : State) : State := engineTurn^[k] s

/-- The state `k` engine turns after the command `i` was written to CMD. -/
def runOf (k : Nat) (i : Instr) (s : State) : State :=
  match exec i s with
  | .next t    => turns k t
  | .fault _   => s
  | .refused _ => s

/-- `s` with its next turn, a host access that returns no data, taken off the list: no register, latch or BUF byte changes (the
two fields are the model's own, log entries 1 and 9). -/
def consumed (s : State) (rest : List Input) : State := { s with inputs := rest, hostData := none }

/-- KEYBITS is one of the three legal values (R115). -/
def keyBitsLegal (s : State) : Prop := s.keybits = 128#32 ∨ s.keybits = 192#32 ∨ s.keybits = 256#32

/-- `InRange(a, n)` (R138). -/
def fits (s : State) (a n : Nat) : Prop := a + n ≤ s.params.bufBytes

/-- The keystream byte for data byte `j` of a message whose first block has index `b0` (R125, R135, R136). -/
def keystreamByte (s : State) (nonce : List Byte) (b0 j : Nat) : Byte :=
  (Config.encryptBlock (counterBlock s.params.ctrByteOrder nonce (b0 + j / 16))
    (Config.expandKey s.liveKey)).toList.getD (j % 16) 0#8

/-- Byte `k` of the KDF's password block for a key of `kl` bytes (R116). -/
def passwordBlock (s : State) (kl k : Nat) : Byte := if k < min s.pwdlen.toNat kl then s.pwdByte k else 0#8

/-- Byte `k` of the KDF's intermediate key T (R117). -/
def intermediateByte (s : State) (kl k : Nat) : Byte :=
  (Config.encryptBlock (Vector.ofFn fun j : Fin 16 => passwordBlock s kl j.val)
    (Config.expandKey ((List.range (if s.params.kdfSchedSrc = .full then kl else 16)).map
      (passwordBlock s kl)))).toList.getD k 0#8

/-- The words the host reads in the register window, by offset; an offset that is not listed reads 0 (R23 to R37). -/
def registerTable (s : State) : List (Nat × Word) :=
  [(0x004, BitVec.ofNat 32 (s.status.busy.toNat + 2 * s.status.done.toNat + 4 * s.status.err.toNat
      + 8 * s.status.ovr.toNat + 16 * s.status.keyValid.toNat + 32 * s.status.klen.toNat
      + 256 * s.status.errcode.toNat)),
   (0x008, BitVec.ofNat 32 s.ie.toNat), (0x00C, s.keybits), (0x010, s.len), (0x014, s.src), (0x018, s.dst),
   (0x01C, BitVec.ofNat 32 s.pwdlen.toNat), (0x020, s.ctrLo), (0x024, s.ctrHi), (0x028, s.nonce0),
   (0x02C, s.nonce1), (0x030, s.progIdx), (0x034, s.progCnt), (0x0FC, 0x43545201#32)]
  ++ (List.finRange 8).map (fun j => (0x040 + 4 * j.val, s.pwd[j]))
  ++ (List.finRange 8).map (fun j => (0x060 + 4 * j.val, s.key[j]))
  ++ (List.finRange 4).map (fun j => (0x080 + 4 * j.val, s.ks[j]))

/-- What a host read at a register offset returns (R23). -/
def registerValue (s : State) (off : Nat) : Word := ((registerTable s).lookup off).getD 0#32

/-- The operand registers by offset, each with the state after a write of `w` to it that takes effect (R23, R26 to
R33). -/
def operandWrites (w : Word) (s : State) : List (Nat × State) :=
  [(0x00C, { s with keybits := w }), (0x010, { s with len := w }), (0x014, { s with src := w }),
   (0x018, { s with dst := w }), (0x01C, { s with pwdlen := BitVec.ofNat 6 (w.toNat % 64) }),
   (0x020, { s with ctrLo := w }), (0x024, { s with ctrHi := w }), (0x028, { s with nonce0 := w }),
   (0x02C, { s with nonce1 := w })]
  ++ (List.finRange 8).map (fun j => (0x040 + 4 * j.val, { s with pwd := s.pwd.set j w }))
  ++ (List.finRange 8).map (fun j => (0x060 + 4 * j.val,
      { s with key := s.key.set j w, status := { s.status with keyValid := false, klen := 0#2 } }))

/-- The offsets whose writes are ignored: the RO registers and the reserved words (R23). -/
def ignoredOffset (off : Nat) : Prop :=
  off = 0x030 ∨ off = 0x034 ∨ off = 0x038 ∨ off = 0x03C ∨ (0x080 ≤ off ∧ off ≤ 0x0FC)

/-- A 32-bit host access to the register window is the next turn. -/
def registerWrite (s : State) (off : Nat) (w : Word) (rest : List Input) : Prop :=
  s.inputs = .access ⟨s.params.base + off, .write32 w⟩ :: rest

/-- The width in bytes and the value of a write. -/
def writeValue (op : BusOp) : Option (Nat × Nat) :=
  match op with
  | .write8 v  => some (1, v.toNat)
  | .write16 v => some (2, v.toNat)
  | .write32 v => some (4, v.toNat)
  | .read8 | .read16 | .read32 => none

/-- The width in bytes of a read. -/
def readWidth (op : BusOp) : Option Nat :=
  match op with
  | .read8  => some 1
  | .read16 => some 2
  | .read32 => some 4
  | .write8 _ | .write16 _ | .write32 _ => none

/-- The next turn is the engine's: its own turn, or no other turn is left. -/
def engineNext (s : State) (rest : List Input) : Prop := s.inputs = .engine :: rest ∨ (s.inputs = [] ∧ rest = [])

/-- The running command's next engine step is its last (R108). -/
def finishing (s : State) : Prop :=
  s.status.busy = true ∧ (s.seq.phase = .finish ∨ (s.seq.phase = .blocks ∧ ¬ s.progIdx.toNat < s.progCnt.toNat))

/-- The running command's next engine step is a block step (R108). -/
def blockNext (s : State) : Prop :=
  s.status.busy = true ∧ s.seq.phase = .blocks ∧ s.progIdx.toNat < s.progCnt.toNat

/-- The next turn resets the CTRKS. -/
def resetNext (s : State) : Prop := (∃ rest, s.inputs = .reset :: rest) ∨ (∃ rest, s.inputs = .powerUp :: rest)

/-- The word of a command (R92). -/
def wordOf (i : Instr) : Nat :=
  match i with
  | .nop => 0 | .kdf => 1 | .setkey => 2 | .ctr => 3 | .ctre => 4 | .ctrd => 5 | .ksgen => 6 | .zero => 7

/-- The order of a command's checks, by error code (R177). -/
def checkOrder (i : Instr) : List Nat :=
  match i with
  | .nop | .zero   => []
  | .kdf | .setkey => [2]
  | .ctr           => [3, 5, 6]
  | .ctre          => [3, 5]
  | .ctrd          => [3, 4, 5]
  | .ksgen         => [3]

/-- The ranges of BUF a command reads and writes, as offset and length (R145, R147, R149). -/
def bufRanges (i : Instr) (s : State) : List (Nat × Nat) :=
  match i with
  | .ctr  => [(s.src.toNat, s.len.toNat), (s.dst.toNat, s.len.toNat)]
  | .ctre => [(s.src.toNat, s.len.toNat), (s.dst.toNat, 8 + s.len.toNat)]
  | .ctrd => [(s.src.toNat, s.len.toNat), (s.dst.toNat, s.len.toNat - 8)]
  | .nop | .kdf | .setkey | .ksgen | .zero => []

/-- Whether the check of this code fails for this command (R176). -/
def checkFails (i : Instr) (s : State) (code : Nat) : Bool :=
  (code == 2 && !(s.keybits == 128#32 || s.keybits == 192#32 || s.keybits == 256#32))
  || (code == 3 && !s.status.keyValid)
  || (code == 4 && decide (s.len.toNat < 8))
  || (code == 5 && (bufRanges i s).any fun r => decide (s.params.bufBytes < r.1 + r.2))
  || (code == 6 && decide (0 < s.len.toNat
        ∧ 2 ^ 64 ≤ 2 ^ 32 * s.ctrHi.toNat + s.ctrLo.toNat + (s.len.toNat + 15) / 16 - 1))

/-- The code of the error a word written to CMD raises, if any: ILLEGAL first, then the first check of the command
that fails (R177). -/
def errorOf (w : Word) (s : State) : Option Nat :=
  if 8 ≤ w.toNat then some 1
  else ([Instr.nop, .kdf, .setkey, .ctr, .ctre, .ctrd, .ksgen, .zero].find? fun i => wordOf i == w.toNat).bind
    fun i => (checkOrder i).find? (checkFails i s)

end Sys2Proof.Claims

open Sys2Proof Sys2Proof.Machine Sys2Proof.Claims

/-! ## Encoding -/

/-- Words written out from the bit patterns of spec/opcode_table.json. -/
def Obligations.CommandWordsDecode : Prop :=
  decode 0b00000000000000000000000000000000#32 = .ok .nop
    ∧ decode 0b00000000000000000000000000000001#32 = .ok .kdf
    ∧ decode 0b00000000000000000000000000000101#32 = .ok .ctrd
    ∧ decode 0b00000000000000000000000000000111#32 = .ok .zero
    ∧ decode 0b00000000000000000000000000001000#32 = .error .reservedOpcode
    ∧ decode 0b00000000000000000000000000010011#32 = .error .reservedBits

/-- R92: a word is a command exactly when it equals the command's opcode value; and the encoder gives that word. -/
def Obligations.WordIsCommandExactlyWhenEqualToItsOpcode : Prop :=
  ∀ (w : Word) (i : Instr), (decode w = .ok i ↔ w.toNat = wordOf i) ∧ (decode w = .ok i ↔ w = encode i)

/-- R93: an illegal word, accepted, raises ILLEGAL (code 1) and does nothing else; the words that are not illegal are
the eight commands. -/
def Obligations.IllegalWordRaisesIllegal : Prop :=
  ∀ (s : State) (w : Word) (rest : List Input),
    registerWrite s 0x000 w rest → s.status.busy = false →
      ((w.extractLsb' 4 28 ≠ 0#28 ∨ 8 ≤ (w.extractLsb' 0 4).toNat) → step s = .next (failed (consumed s rest) 1#4))
      ∧ (¬ (w.extractLsb' 4 28 ≠ 0#28 ∨ 8 ≤ (w.extractLsb' 0 4).toNat) →
          ∃ i, decode w = .ok i ∧ step s = exec i (consumed s rest))

/-- R106: a write of a command's word to CMD while BUSY = 0 runs that command's accept at once, in the host's step. The second
clause is about the model's own `withFetchWord`, which places such a write and sets BUSY to 0: the model's choice (log entry
11, DEDUCED). -/
def Obligations.StepRunsTheDecodedCommand : Prop :=
  (∀ (s : State) (w : Word) (i : Instr) (rest : List Input),
    s.inputs = cmdWrite s.params w :: rest → s.status.busy = false → decode w = .ok i →
      step s = exec i { s with inputs := rest, hostData := none })
  ∧ ∀ (s : State) (w : Nat) (i : Instr), decodeTableWord 32 w = some i →
      step (s.withFetchWord 32 w) = exec i { s with hostData := none, status := { s.status with busy := false } }

/-- R112: a CMD write while BUSY = 1 only sets OVR; OVR then stays 1 until a STATUS write with bit 3 set or a reset:
accepts, engine steps and every other access keep it. -/
def Obligations.CommandWhileBusyOnlySetsStickyOvr : Prop :=
  (∀ (s : State) (w : Word) (rest : List Input), registerWrite s 0x000 w rest → s.status.busy = true →
    step s = .next { consumed s rest with status := { s.status with ovr := true } })
  ∧ (∀ s t : State, step s = .next t → s.status.ovr = true →
    t.status.ovr = true ∨ resetNext s ∨ ∃ w rest, registerWrite s 0x004 w rest ∧ w.getLsbD 3 = true)

/-! ## Errors at accept -/

/-- R177, R173: a word written to CMD while BUSY = 0 reports, in the same step, exactly the first failing check's code,
and is accepted when none fails. -/
def Obligations.FirstFailingCheckIsReported : Prop :=
  ∀ (s : State) (w : Word) (rest : List Input), registerWrite s 0x000 w rest → s.status.busy = false →
    ∃ t, step s = .next t ∧
      (∀ code, errorOf w s = some code →
        t.status.err = true ∧ t.status.errcode = BitVec.ofNat 4 code ∧ t.status.done = true ∧ t.status.busy = false)
      ∧ (errorOf w s = none →
        t.status.err = false ∧ t.status.errcode = 0#4 ∧ t.status.done = false ∧ t.status.busy = true)

/-- R180, R181: after an error only DONE, ERR, ERRCODE, PROG_IDX and PROG_CNT differ, and for KEYSIZE KEY_VALID and
KLEN; no BUF byte, operand register or latch changes; the interrupt line follows at once. -/
def Obligations.ErrorsArePrecise : Prop :=
  ∀ (s t : State) (w : Word) (rest : List Input), registerWrite s 0x000 w rest → s.status.busy = false →
    step s = .next t → t.status.err = true →
      t.status.errcode ≠ 0#4 ∧ t.irq = s.ie
      ∧ (t.status.errcode ≠ 2#4 → t = failed (consumed s rest) t.status.errcode)
      ∧ (t.status.errcode = 2#4 → t = failedKeysize (consumed s rest))

/-- R119, R115: KDF and SETKEY with an illegal key size raise KEYSIZE, clear KEY_VALID and KLEN and keep KEY; a
keystream command then raises NOKEY; no other error changes more than the outcome bits and the progress registers. -/
def Obligations.IllegalKeySizeRaisesKeysize : Prop :=
  (∀ (i : Instr) (s : State), (i = .kdf ∨ i = .setkey) → s.status.busy = false → ¬ keyBitsLegal s →
    exec i s = .next (failedKeysize s)
    ∧ ∀ c, (c = .ctr ∨ c = .ctre ∨ c = .ctrd ∨ c = .ksgen) →
        exec c (failedKeysize s) = .next (failed (failedKeysize s) 3#4))
  ∧ ∀ (i : Instr) (s t : State), s.status.busy = false → exec i s = .next t → t.status.err = true →
      t.status.errcode ≠ 2#4 → t = failed s t.status.errcode

/-- R137: the keystream commands raise NOKEY while no key is valid, whatever else is wrong. -/
def Obligations.NoValidKeyRaisesNokey : Prop :=
  ∀ (i : Instr) (s : State), (i = .ctr ∨ i = .ctre ∨ i = .ctrd ∨ i = .ksgen) →
    s.status.busy = false → s.status.keyValid = false → exec i s = .next (failed s 3#4)

/-- R149: CTRD of a frame shorter than the nonce raises MALFORMED and keeps NONCE, whatever its ranges are. -/
def Obligations.ShortFrameRaisesMalformed : Prop :=
  ∀ s : State, s.status.busy = false → s.status.keyValid = true → s.len.toNat < 8 →
    exec .ctrd s = .next (failed s 4#4)

/-- R138: a range past BUF_BYTES, computed without wrap, raises RANGE; with an empty range the offset must still be at
most BUF_BYTES. -/
def Obligations.RangePastBufRaisesRange : Prop :=
  ∀ (i : Instr) (s : State), (i = .ctr ∨ i = .ctre ∨ i = .ctrd) →
    s.status.busy = false → s.status.keyValid = true → (i = .ctrd → 8 ≤ s.len.toNat) →
    (∃ r ∈ bufRanges i s, ¬ fits s r.1 r.2) → exec i s = .next (failed s 5#4)

/-- R129: a CTR whose last index would reach 2^64 raises CTROVF; no other command ever does. -/
def Obligations.IndexExhaustionRaisesCtrovf : Prop :=
  (∀ s : State, s.status.busy = false → s.status.keyValid = true →
    fits s s.src.toNat s.len.toNat → fits s s.dst.toNat s.len.toNat →
    0 < blockCount s.len.toNat → 2 ^ 64 ≤ s.ctr64 + blockCount s.len.toNat - 1 →
      exec .ctr s = .next (failed s 6#4))
  ∧ ∀ (i : Instr) (s t : State), i ≠ .ctr → s.status.busy = false → exec i s = .next t → t.status.errcode ≠ 6#4

/-! ## The commands, from their accept to their completion -/

/-- R106, R107: an accept whose checks pass changes only STATUS's outcome bits, the progress registers and the
latches. It is stated of every command: exec's result, whichever it is, differs from the state before in nothing
else. -/
def Obligations.AcceptChangesOnlyOutcomeProgressAndLatches : Prop :=
  ∀ (i : Instr) (s : State), ∃ t, exec i s = .next t ∧
    t = { s with status := t.status, progIdx := t.progIdx, progCnt := t.progCnt, seq := t.seq, draws := t.draws }
    ∧ (t.status.err = false → t.status.keyValid = s.status.keyValid ∧ t.status.klen = s.status.klen)

/-- R114: NOP is the word 0; accepted, it completes after one engine step with DONE set, ERR and ERRCODE clear and
nothing else changed; while BUSY = 1 it is dropped; a word with OPC 0 and an RSV bit set is no NOP. -/
def Obligations.NopCompletes : Prop :=
  encode .nop = 0x00000000#32
  ∧ (∀ w : Word, w.extractLsb' 0 4 = 0#4 → w.extractLsb' 4 28 ≠ 0#28 → decode w = .error .reservedBits)
  ∧ (∀ s : State, s.status.busy = false →
    ∃ t, exec .nop s = .next t ∧ agree t (accepted s 0) ∧ t.seq.op = .nop ∧ t.seq.phase = .finish
      ∧ agree (turns 1 t) (finished s 0))
  ∧ ∀ s : State, s.status.busy = true → exec .nop s = .next { s with status := { s.status with ovr := true } }

/-- R116, R117, R118: with a legal key size KDF writes the derived key to KEY, zero above the key length, and sets KLEN
and KEY_VALID; PWD and PWDLEN and everything else stay. -/
def Obligations.KdfDerivesTheKey : Prop :=
  ∀ s : State, s.status.busy = false → keyBitsLegal s →
    ∃ t u, exec .kdf s = .next t ∧ agree t (accepted s 0) ∧ t.seq.op = .kdf ∧ t.seq.phase = .finish
      ∧ u = turns 1 t
      ∧ agree u { finished s 0 with
          key := u.key
          status := { (finished s 0).status with
            keyValid := true
            klen := if s.keybits = 128#32 then 1#2 else if s.keybits = 192#32 then 2#2 else 3#2 } }
      ∧ ∀ k, k < 32 → u.keyByte k =
          if k < s.keybits.toNat / 8 then intermediateByte s (s.keybits.toNat / 8) (k % 16) else 0#8

/-- R120: with a legal key size SETKEY validates KEY as it stands and changes no key byte. -/
def Obligations.SetkeyValidatesTheKey : Prop :=
  ∀ s : State, s.status.busy = false → keyBitsLegal s →
    ∃ t, exec .setkey s = .next t ∧ agree t (accepted s 0) ∧ t.seq.op = .setkey ∧ t.seq.phase = .finish
      ∧ agree (turns 1 t) { finished s 0 with
          status := { (finished s 0).status with
            keyValid := true
            klen := if s.keybits = 128#32 then 1#2 else if s.keybits = 192#32 then 2#2 else 3#2 } }

/-- R121: ZERO is the word 7; it clears PWD, PWDLEN, KEY, KS, KEY_VALID and KLEN and nothing else, with or without a
key. -/
def Obligations.ZeroClearsTheSecrets : Prop :=
  encode .zero = 0x00000007#32 ∧ ∀ s : State, s.status.busy = false →
    ∃ t, exec .zero s = .next t ∧ agree t (accepted s 0) ∧ t.seq.op = .zero ∧ t.seq.phase = .finish
      ∧ agree (turns 1 t) { finished s 0 with
          pwd := Vector.replicate 8 0#32
          key := Vector.replicate 8 0#32
          ks := Vector.replicate 4 0#32
          pwdlen := 0#6
          status := { (finished s 0).status with keyValid := false, klen := 0#2 } }

/-- R151: KSGEN writes the keystream block of index CTR64 to KS and advances nothing. -/
def Obligations.KsgenWritesOneKeystreamBlock : Prop :=
  ∀ s : State, s.status.busy = false → s.status.keyValid = true →
    ∃ t u, exec .ksgen s = .next t ∧ agree t (accepted s 0) ∧ t.seq.op = .ksgen ∧ t.seq.phase = .finish
      ∧ u = turns 1 t
      ∧ agree u { finished s 0 with ks := u.ks }
      ∧ ∀ k, k < 16 → u.ksByte k = keystreamByte s s.nonceBytes s.ctr64 k

/-- R145, R147, R149: when the checks pass, the accept latches the command's offsets, length, first index and schedule,
whatever the overlap of the ranges. -/
def Obligations.KeystreamCommandsLatchTheirOperands : Prop :=
  (∀ s : State, s.status.busy = false → s.status.keyValid = true →
    fits s s.src.toNat s.len.toNat → fits s s.dst.toNat s.len.toNat →
    (blockCount s.len.toNat = 0 ∨ s.ctr64 + blockCount s.len.toNat - 1 < 2 ^ 64) →
    ∃ t, exec .ctr s = .next t ∧ agree t (accepted s (blockCount s.len.toNat))
      ∧ t.seq = ⟨.ctr, .blocks, s.src, s.dst, s.len, BitVec.ofNat 64 s.ctr64, Config.expandKey s.liveKey⟩)
  ∧ (∀ s : State, s.status.busy = false → s.status.keyValid = true →
    fits s s.src.toNat s.len.toNat → fits s s.dst.toNat (8 + s.len.toNat) →
    ∃ t, exec .ctre s = .next t ∧ agree t (accepted s (blockCount s.len.toNat))
      ∧ t.seq = ⟨.ctre, .frame, s.src, BitVec.ofNat 32 (s.dst.toNat + 8), s.len, 0#64, Config.expandKey s.liveKey⟩)
  ∧ ∀ s : State, s.status.busy = false → s.status.keyValid = true → 8 ≤ s.len.toNat →
    fits s s.src.toNat s.len.toNat → fits s s.dst.toNat (s.len.toNat - 8) →
    ∃ t, exec .ctrd s = .next t ∧ agree t (accepted s (blockCount (s.len.toNat - 8)))
      ∧ t.seq = ⟨.ctrd, .frame, BitVec.ofNat 32 (s.src.toNat + 8), s.dst, BitVec.ofNat 32 (s.len.toNat - 8), 0#64,
          Config.expandKey s.liveKey⟩

/-- R145 with R130, R142, R143, R146 (b), R144: CTR of L bytes takes N + 1 engine steps, after which CTR64 is advanced by
N, no BUF byte outside the output range has changed and only the progress and outcome differ else, whatever the overlap of the
ranges; and in the layouts R144 calls exact, in-place among them, the output range holds the input XORed with the keystream from
index CTR64. (In the other layouts the output is what the block steps give one after the other: `BlockStepXorsOneBlock`.) -/
def Obligations.CtrTransformsTheMessage : Prop :=
  ∀ s : State, s.status.busy = false → s.status.keyValid = true →
    fits s s.src.toNat s.len.toNat → fits s s.dst.toNat s.len.toNat →
    (blockCount s.len.toNat = 0 ∨ s.ctr64 + blockCount s.len.toNat - 1 < 2 ^ 64) →
    ∃ t u, exec .ctr s = .next t ∧ u = turns (blockCount s.len.toNat + 1) t
      ∧ (∀ k, k ≤ blockCount s.len.toNat → (turns k t).status.busy = true)
      ∧ agree u { finished s (blockCount s.len.toNat) with
          buf := u.buf
          ctrLo := BitVec.ofNat 32 (s.ctr64 + blockCount s.len.toNat)
          ctrHi := BitVec.ofNat 32 ((s.ctr64 + blockCount s.len.toNat) / 2 ^ 32) }
      ∧ (∀ a, ¬ (s.dst.toNat ≤ a ∧ a < s.dst.toNat + s.len.toNat) → u.readByte a = s.readByte a)
      ∧ (s.dst.toNat ≤ s.src.toNat ∨ s.src.toNat + s.len.toNat ≤ s.dst.toNat →
          ∀ j, j < s.len.toNat →
            u.readByte (s.dst.toNat + j)
              = s.readByte (s.src.toNat + j) ^^^ keystreamByte s s.nonceBytes s.ctr64 j)

/-- R147 with R148, R144: CTRE takes N + 2 engine steps, after which the frame begins with the nonce, no BUF byte outside the
frame has changed and CTR64 is as it was, whatever the overlap of the ranges; and in the layouts R144 calls exact, the rest of
the frame is the input XORed with the keystream from index 0. -/
def Obligations.CtreWritesTheFrame : Prop :=
  ∀ s : State, s.status.busy = false → s.status.keyValid = true →
    fits s s.src.toNat s.len.toNat → fits s s.dst.toNat (8 + s.len.toNat) →
    ∃ t u, exec .ctre s = .next t ∧ u = turns (blockCount s.len.toNat + 2) t
      ∧ (∀ k, k ≤ blockCount s.len.toNat + 1 → (turns k t).status.busy = true)
      ∧ agree u { finished s (blockCount s.len.toNat) with buf := u.buf }
      ∧ (∀ j, j < 8 → u.readByte (s.dst.toNat + j) = s.nonceBytes.getD j 0#8)
      ∧ (∀ a, ¬ (s.dst.toNat ≤ a ∧ a < s.dst.toNat + (8 + s.len.toNat)) → u.readByte a = s.readByte a)
      ∧ (s.dst.toNat + 8 ≤ s.src.toNat ∨ s.src.toNat + s.len.toNat ≤ s.dst.toNat →
          ∀ j, j < s.len.toNat →
            u.readByte (s.dst.toNat + 8 + j) = s.readByte (s.src.toNat + j) ^^^ keystreamByte s s.nonceBytes 0 j)

/-- R149 with R144: CTRD takes N + 2 engine steps, after which NONCE holds the frame's first 8 bytes and no BUF byte outside
the output range has changed, whatever the overlap of the ranges; and in the layouts R144 calls exact, the output is the rest of
the frame XORed with the keystream of that nonce from index 0. -/
def Obligations.CtrdReadsTheFrame : Prop :=
  ∀ s : State, s.status.busy = false → s.status.keyValid = true → 8 ≤ s.len.toNat →
    fits s s.src.toNat s.len.toNat → fits s s.dst.toNat (s.len.toNat - 8) →
    ∃ t u, exec .ctrd s = .next t ∧ u = turns (blockCount (s.len.toNat - 8) + 2) t
      ∧ (∀ k, k ≤ blockCount (s.len.toNat - 8) + 1 → (turns k t).status.busy = true)
      ∧ agree u { finished s (blockCount (s.len.toNat - 8)) with
          buf := u.buf
          nonce0 := u.nonce0
          nonce1 := u.nonce1 }
      ∧ u.nonceBytes = (List.range 8).map (fun k => s.readByte (s.src.toNat + k))
      ∧ (∀ a, ¬ (s.dst.toNat ≤ a ∧ a < s.dst.toNat + (s.len.toNat - 8)) → u.readByte a = s.readByte a)
      ∧ (s.dst.toNat ≤ s.src.toNat + 8 ∨ s.src.toNat + s.len.toNat ≤ s.dst.toNat →
          ∀ j, j < s.len.toNat - 8 →
            u.readByte (s.dst.toNat + j)
              = s.readByte (s.src.toNat + 8 + j) ^^^ keystreamByte s u.nonceBytes 0 j)

/-! ## The engine's steps -/

/-- R141, R135, R139: a block step reads its whole input block, writes its XOR with the leading keystream bytes at the
output block's offsets, and increments PROG_IDX; it changes nothing else. -/
def Obligations.BlockStepXorsOneBlock : Prop :=
  ∀ s : State, blockNext s →
    ∃ t i m, engineTurn s = t ∧ i = s.progIdx.toNat
      ∧ m = (if i + 1 < s.progCnt.toNat then 16 else (s.seq.len.toNat - 1) % 16 + 1)
      ∧ t = { s with buf := t.buf, progIdx := BitVec.ofNat 32 (i + 1) }
      ∧ ∀ a, t.readByte a =
          if s.seq.dst.toNat + 16 * i ≤ a ∧ a < s.seq.dst.toNat + 16 * i + m then
            s.readByte (s.seq.src.toNat + 16 * i + (a - (s.seq.dst.toNat + 16 * i)))
              ^^^ (Config.encryptBlock
                    (counterBlock s.params.ctrByteOrder s.nonceBytes (s.seq.b0.toNat + i))
                    s.seq.sched).toList.getD (a - (s.seq.dst.toNat + 16 * i)) 0#8
          else s.readByte a

/-- R147, R149, R108: the frame step of CTRE writes the 8 nonce bytes at DST, that of CTRD loads NONCE from the 8 bytes at
SRC; both go on to BLOCKS and change nothing else. -/
def Obligations.FrameStepsMoveTheNonce : Prop :=
  (∀ s : State, s.status.busy = true → s.seq.phase = .frame → s.seq.op = .ctre →
    ∃ t, engineTurn s = t ∧ t = { s with buf := t.buf, seq := { s.seq with phase := .blocks } }
      ∧ ∀ a, t.readByte a =
          if s.dst.toNat ≤ a ∧ a < s.dst.toNat + 8 then s.nonceBytes.getD (a - s.dst.toNat) 0#8 else s.readByte a)
  ∧ ∀ s : State, s.status.busy = true → s.seq.phase = .frame → s.seq.op = .ctrd →
    ∃ t, engineTurn s = t
      ∧ t = { s with nonce0 := t.nonce0, nonce1 := t.nonce1, seq := { s.seq with phase := .blocks } }
      ∧ t.nonceBytes = (List.range 8).map fun k => s.readByte (s.src.toNat + k)

/-- R109, R174, R108: a running command completes after exactly the engine steps its phase and progress leave, and not
before; no engine step raises an error; a command that fails writes no output: it starts no run and changes no BUF byte, no KEY
and no KS. -/
def Obligations.RunningCommandCompletes : Prop :=
  (∀ (i : Instr) (s t : State), s.status.busy = false → exec i s = .next t → t.status.err = true →
    t.status.busy = false ∧ t.key = s.key ∧ t.ks = s.ks ∧ ∀ a, t.readByte a = s.readByte a)
  ∧ ∀ s : State, s.status.busy = true →
    ∃ k, k = (match s.seq.phase with
          | .frame  => s.progCnt.toNat - s.progIdx.toNat + 2
          | .blocks => s.progCnt.toNat - s.progIdx.toNat + 1
          | .finish => 1)
      ∧ (∀ j, j < k → (turns j s).status.busy = true)
      ∧ (turns k s).status.busy = false ∧ (turns k s).status.done = true
      ∧ ∀ j, (turns j s).status.err = s.status.err ∧ (turns j s).status.errcode = s.status.errcode

/-- The machine with no other turn left takes engine turns (R111; that the list of turns stands for the interleaving is
the model's choice, log entry 1). -/
def Obligations.MachineRunIsEngineTurns : Prop :=
  ∀ (s : State) (k : Nat), s.inputs = [] → Sys2Proof.core.run k s = .next (turns k s)

/-- R146 (b), R67: an engine step changes no BUF byte outside the block it writes, or the 8 frame bytes of a CTRE frame
step; in a state that meets the invariant the block lies in the command's output range. -/
def Obligations.EngineStepWritesOnlyItsOutput : Prop :=
  ∀ (s : State) (a : Nat), (engineTurn s).readByte a ≠ s.readByte a →
    (blockNext s ∧ s.seq.dst.toNat + 16 * s.progIdx.toNat ≤ a ∧ a < s.seq.dst.toNat + 16 * s.progIdx.toNat + 16
      ∧ (Inv s → s.seq.dst.toNat ≤ a ∧ a < s.seq.dst.toNat + s.seq.len.toNat))
    ∨ (s.status.busy = true ∧ s.seq.phase = .frame ∧ s.seq.op = .ctre ∧ s.dst.toNat ≤ a ∧ a < s.dst.toNat + 8)

/-- R67: in a state that meets the invariant, every engine read and write lies inside BUF. -/
def Obligations.EngineAccessesStayInsideBuf : Prop :=
  ∀ s : State, Inv s →
    (blockNext s →
      s.seq.src.toNat + 16 * s.progIdx.toNat
          + blockLen s.seq.len.toNat s.progCnt.toNat s.progIdx.toNat ≤ s.params.bufBytes
      ∧ s.seq.dst.toNat + 16 * s.progIdx.toNat
          + blockLen s.seq.len.toNat s.progCnt.toNat s.progIdx.toNat ≤ s.params.bufBytes)
    ∧ (s.status.busy = true → s.seq.phase = .frame →
      (s.seq.op = .ctre → s.dst.toNat + 8 ≤ s.params.bufBytes)
      ∧ (s.seq.op = .ctrd → s.src.toNat + 8 ≤ s.params.bufBytes))

/-! ## The counter -/

/-- R124, R125: the counter block is the nonce, then the high half, then the low half, each in the parameter's byte
order. -/
def Obligations.CounterBlockLayout : Prop :=
  ∀ (o : ByteOrder) (n : List Byte) (b j : Nat), n.length = 8 → b < 2 ^ 64 → j < 16 →
    (counterBlock o n b).toList.getD j 0#8 =
      if j < 8 then n.getD j 0#8
      else if j < 12 then
        BitVec.ofNat 8 (b / 2 ^ 32 / 256 ^ (if o = .le then j - 8 else 11 - j))
      else BitVec.ofNat 8 (b % 2 ^ 32 / 256 ^ (if o = .le then j - 12 else 15 - j))

/-- R134 (a): for a fixed nonce, different indices have different counter blocks. -/
def Obligations.CounterBlocksAreDistinct : Prop :=
  ∀ (o : ByteOrder) (n : List Byte) (b c : Nat), n.length = 8 → b < 2 ^ 64 → c < 2 ^ 64 →
    counterBlock o n b = counterBlock o n c → b = c

/-- R128: from one index to the next the halves change as one 64-bit increment, the low half carrying into the high; the
counter bytes on both sides of the 32-bit boundary. -/
def Obligations.CounterCarriesIntoTheHighHalf : Prop :=
  (∀ b : Nat, b < 2 ^ 64 - 1 →
    indexLo (b + 1) = indexLo b + 1#32
    ∧ (indexHi (b + 1)).toNat = (if indexLo b = 0xFFFFFFFF#32 then (indexHi b).toNat + 1 else (indexHi b).toNat)
    ∧ 2 ^ 32 * (indexHi (b + 1)).toNat + (indexLo (b + 1)).toNat = b + 1)
  ∧ ∀ n : List Byte, n.length = 8 →
      counterBytes .le n (2 ^ 32 - 1) = n ++ [0x00#8, 0x00#8, 0x00#8, 0x00#8, 0xFF#8, 0xFF#8, 0xFF#8, 0xFF#8]
      ∧ counterBytes .le n (2 ^ 32) = n ++ [0x01#8, 0x00#8, 0x00#8, 0x00#8, 0x00#8, 0x00#8, 0x00#8, 0x00#8]

/-- R131, R132: the block lengths are between 1 and 16, all but the last are 16, and they add up to L; L = 0 has no
block. -/
def Obligations.BlockLengthsCoverTheMessage : Prop :=
  blockCount 0 = 0
  ∧ ∀ l : Nat, 0 < l →
    (∀ i, i + 1 < blockCount l → blockLen l (blockCount l) i = 16)
    ∧ blockLen l (blockCount l) (blockCount l - 1) = (l - 1) % 16 + 1
    ∧ ((List.range (blockCount l)).map (blockLen l (blockCount l))).sum = l

/-! ## Laws over commands -/

/-- R122: (a) and (c) the derived key depends only on the key size, the schedule parameter, the number of password bytes
read and those bytes; (b) the stretch repeats the leading bytes; (d) with FIRST16 the three sizes agree on the first 16
bytes. -/
def Obligations.KdfLaws : Prop :=
  (∀ s t : State, s.status.busy = false → t.status.busy = false → keyBitsLegal s → t.keybits = s.keybits →
    t.params.kdfSchedSrc = s.params.kdfSchedSrc →
    min t.pwdlen.toNat (s.keybits.toNat / 8) = min s.pwdlen.toNat (s.keybits.toNat / 8) →
    (∀ k, k < min s.pwdlen.toNat (s.keybits.toNat / 8) → t.pwdByte k = s.pwdByte k) →
      (runOf 1 .kdf t).key = (runOf 1 .kdf s).key)
  ∧ (∀ s : State, s.status.busy = false → keyBitsLegal s →
      ∀ k, k + 16 < s.keybits.toNat / 8 → (runOf 1 .kdf s).keyByte (16 + k) = (runOf 1 .kdf s).keyByte k)
  ∧ ∀ s t : State, s.status.busy = false → keyBitsLegal s → s.params.kdfSchedSrc = .first16 →
      t = { s with keybits := t.keybits } → keyBitsLegal t →
      ∀ k, k < 16 → (runOf 1 .kdf t).keyByte k = (runOf 1 .kdf s).keyByte k

/-- R146 (a): a CTR over the output of a CTR, with the same key, nonce, start index and length, writes the first one's
input back. -/
def Obligations.CtrIsAnInvolution : Prop :=
  ∀ (s : State) (dst : Word), s.status.busy = false → s.status.keyValid = true →
    fits s s.src.toNat s.len.toNat → fits s s.dst.toNat s.len.toNat → fits s dst.toNat s.len.toNat →
    (blockCount s.len.toNat = 0 ∨ s.ctr64 + blockCount s.len.toNat - 1 < 2 ^ 64) →
    (s.dst.toNat ≤ s.src.toNat ∨ s.src.toNat + s.len.toNat ≤ s.dst.toNat) →
    (dst.toNat ≤ s.dst.toNat ∨ s.dst.toNat + s.len.toNat ≤ dst.toNat) →
    ∀ j, j < s.len.toNat →
      (runOf (blockCount s.len.toNat + 1) .ctr
        { runOf (blockCount s.len.toNat + 1) .ctr s with
          src := s.dst, dst := dst, ctrLo := s.ctrLo, ctrHi := s.ctrHi }).readByte (dst.toNat + j)
        = s.readByte (s.src.toNat + j)

/-- R134 (c): a CTR over L bytes and two CTRs over its first 16m bytes and the rest leave the same BUF bytes and the same
CTR64, when the ranges do not overlap. -/
def Obligations.CtrSegmentsLikeOneMessage : Prop :=
  ∀ (s : State) (m : Nat), s.status.busy = false → s.status.keyValid = true →
    fits s s.src.toNat s.len.toNat → fits s s.dst.toNat s.len.toNat →
    (blockCount s.len.toNat = 0 ∨ s.ctr64 + blockCount s.len.toNat - 1 < 2 ^ 64) →
    (s.src.toNat + s.len.toNat ≤ s.dst.toNat ∨ s.dst.toNat + s.len.toNat ≤ s.src.toNat) →
    16 * m ≤ s.len.toNat →
    ∀ one two, one = runOf (blockCount s.len.toNat + 1) .ctr s →
      two = runOf (blockCount (s.len.toNat - 16 * m) + 1) .ctr
        { runOf (m + 1) .ctr { s with len := BitVec.ofNat 32 (16 * m) } with
          len := BitVec.ofNat 32 (s.len.toNat - 16 * m)
          src := BitVec.ofNat 32 (s.src.toNat + 16 * m)
          dst := BitVec.ofNat 32 (s.dst.toNat + 16 * m) } →
      (∀ a, two.readByte a = one.readByte a) ∧ two.ctrLo = one.ctrLo ∧ two.ctrHi = one.ctrHi

/-- R150: a CTRE and then a CTRD of its frame, with the same key and whatever NONCE the host wrote between them, give the
message and the nonce back. -/
def Obligations.FramedRoundTrip : Prop :=
  ∀ (s : State) (dst n0 n1 : Word), s.status.busy = false → s.status.keyValid = true →
    fits s s.src.toNat s.len.toNat → fits s s.dst.toNat (8 + s.len.toNat) → fits s dst.toNat s.len.toNat →
    (s.dst.toNat + 8 + s.len.toNat ≤ s.src.toNat ∨ s.src.toNat + s.len.toNat ≤ s.dst.toNat) →
    (dst.toNat + s.len.toNat ≤ s.dst.toNat ∨ s.dst.toNat + 8 + s.len.toNat ≤ dst.toNat) →
    ∀ u, u = runOf (blockCount s.len.toNat + 2) .ctrd
        { runOf (blockCount s.len.toNat + 2) .ctre s with
          src := s.dst, dst := dst, len := BitVec.ofNat 32 (s.len.toNat + 8), nonce0 := n0, nonce1 := n1 } →
      (∀ j, j < s.len.toNat → u.readByte (dst.toNat + j) = s.readByte (s.src.toNat + j))
      ∧ u.nonce0 = s.nonce0 ∧ u.nonce1 = s.nonce1

/-! ## The host's accesses -/

/-- R23, R24, R36's registers, R68: a 32-bit read in the register window returns the register's current value, whatever BUSY
is, and changes nothing. -/
def Obligations.RegisterReadsReturnTheRegisterMap : Prop :=
  ∀ (s : State) (k : Nat) (rest : List Input), k < 64 →
    s.inputs = .access ⟨s.params.base + 4 * k, .read32⟩ :: rest →
      step s = .next { s with inputs := rest, hostData := some (registerValue s (4 * k)) }

/-- R23, R26 to R33: a write to an operand register while BUSY = 0 stores the value, a KEYj write also clearing KEY_VALID
and KLEN, and changes nothing else. -/
def Obligations.IdleOperandWritesTakeEffect : Prop :=
  ∀ (s t : State) (off : Nat) (w : Word) (rest : List Input),
    registerWrite s off w rest → s.status.busy = false → (off, t) ∈ operandWrites w (consumed s rest) →
      step s = .next t

/-- R113: while BUSY = 1 operand writes are dropped without a trace, STATUS and CTRL writes take effect, and register reads
return the current value; writes to RO and reserved words are ignored whatever BUSY is. -/
def Obligations.RegisterAccessWhileBusy : Prop :=
  (∀ (s t : State) (off : Nat) (w : Word) (rest : List Input),
    registerWrite s off w rest → s.status.busy = true → (off, t) ∈ operandWrites w (consumed s rest) →
      step s = .next (consumed s rest))
  ∧ (∀ (s : State) (w : Word) (rest : List Input), registerWrite s 0x004 w rest → s.status.busy = true →
      step s = .next { consumed s rest with status := s.status.writeOneToClear w })
  ∧ (∀ (s : State) (w : Word) (rest : List Input), registerWrite s 0x008 w rest → s.status.busy = true →
      step s = .next { consumed s rest with ie := w.getLsbD 0 })
  ∧ (∀ (s : State) (off : Nat) (w : Word) (rest : List Input), registerWrite s off w rest →
      ignoredOffset off → off % 4 = 0 → step s = .next (consumed s rest))
  ∧ ∀ (s : State) (k : Nat) (rest : List Input), k < 64 → s.status.busy = true →
      s.inputs = .access ⟨s.params.base + 4 * k, .read32⟩ :: rest →
        step s = .next { s with inputs := rest, hostData := some (registerValue s (4 * k)) }

/-- R24: a write of `w` to STATUS clears DONE, ERR with ERRCODE, and OVR by its bits 1, 2 and 3, whatever BUSY is, and
nothing else. -/
def Obligations.StatusIsWriteOneToClear : Prop :=
  ∀ (s : State) (w : Word) (rest : List Input), registerWrite s 0x004 w rest →
    step s = .next { consumed s rest with status := { s.status with
      done    := if w.getLsbD 1 then false else s.status.done
      err     := if w.getLsbD 2 then false else s.status.err
      errcode := if w.getLsbD 2 then 0#4 else s.status.errcode
      ovr     := if w.getLsbD 3 then false else s.status.ovr } }

/-- R25: a CTRL write stores bit 0 in IE, whatever BUSY is; bits 31:1 read as 0; the reset value is 0. -/
def Obligations.CtrlHoldsOnlyIe : Prop :=
  (∀ (s : State) (w : Word) (rest : List Input), registerWrite s 0x008 w rest →
    step s = .next { consumed s rest with ie := w.getLsbD 0 }
    ∧ registerValue { consumed s rest with ie := w.getLsbD 0 } 0x008 = w &&& 1#32)
  ∧ registerValue State.reset 0x008 = 0#32

/-- R63: an aligned host BUF access of 1, 2 or 4 bytes while BUSY = 0 moves its bytes little-endian, and changes nothing but
the bytes it writes. -/
def Obligations.HostBufAccessIsLittleEndian : Prop :=
  (∀ (s : State) (op : BusOp) (a n v : Nat) (rest : List Input), s.status.busy = false →
    writeValue op = some (n, v) → a % n = 0 → a + n ≤ s.params.bufBytes →
    s.inputs = .access ⟨s.params.base + (0x80000 + a), op⟩ :: rest →
      ∃ t, step s = .next t ∧ t = { consumed s rest with buf := t.buf }
        ∧ ∀ x, t.readByte x = if a ≤ x ∧ x < a + n then BitVec.ofNat 8 (v / 256 ^ (x - a)) else s.readByte x)
  ∧ ∀ (s : State) (op : BusOp) (a n : Nat) (rest : List Input), s.status.busy = false →
    readWidth op = some n → a % n = 0 → a + n ≤ s.params.bufBytes →
    s.inputs = .access ⟨s.params.base + (0x80000 + a), op⟩ :: rest →
      step s = .next { s with
        inputs := rest
        hostData := some (BitVec.ofNat 32
          ((List.range n).map fun k => 256 ^ k * (s.readByte (a + k)).toNat).sum) }

/-- R69: while BUSY = 1 a host BUF write changes nothing and a host BUF read returns some value of its width and changes
nothing. The value is a free value: nothing is said of it but its width. -/
def Obligations.HostBufAccessWhileBusy : Prop :=
  ∀ (s : State) (op : BusOp) (a n : Nat) (rest : List Input), s.status.busy = true →
    a % n = 0 → a + n ≤ s.params.bufBytes →
    s.inputs = .access ⟨s.params.base + (0x80000 + a), op⟩ :: rest →
      (∀ v, writeValue op = some (n, v) → step s = .next (consumed s rest))
      ∧ (readWidth op = some n → ∃ (v : Nat) (t : State), v < 256 ^ n ∧ step s = .next t
          ∧ t = { s with inputs := rest, hostData := some (BitVec.ofNat 32 v), draws := t.draws })

/-- R65, R60, R64: an access in the window is a bus error exactly when it is reserved, misaligned, a narrow register access
or past BUF; no other access of the window faults. That the fault gives the width in bits and that there is no next state is the
model's choice (log entry 15, DEDUCED); that this holds of BUF accesses while BUSY = 1 too is the model's choice between R65 and
R69 (log entry 17, DESIGN CHOICE). -/
def Obligations.BusErrorsAreExactlyTheUndefinedAccesses : Prop :=
  ∀ (s : State) (op : BusOp) (off : Nat) (rest : List Input), off < 0x100000 →
    s.inputs = .access ⟨s.params.base + off, op⟩ :: rest →
      ((0x100 ≤ off ∧ off < 0x80000) ∨ 0x80000 + s.params.bufBytes ≤ off
        ∨ (off < 0x100 ∧ (op.bytes ≠ 4 ∨ off % 4 ≠ 0))
        ∨ (0x80000 ≤ off ∧ (off % op.bytes ≠ 0 ∨ 0x80000 + s.params.bufBytes < off + op.bytes))
        ↔ step s = .fault (.busError off (8 * op.bytes) op.isWrite))
      ∧ ((∃ f, step s = .fault f) → step s = .fault (.busError off (8 * op.bytes) op.isWrite))

/-- R60: the CTRKS decodes its window alone. That an access outside it still takes the host's turn, with no data, is the model's
choice (log entry 10). -/
def Obligations.AccessOutsideTheWindowChangesNothing : Prop :=
  ∀ (s : State) (acc : BusAccess) (rest : List Input), s.inputs = .access acc :: rest →
    (acc.addr < s.params.base ∨ 0x100000 ≤ acc.addr - s.params.base) → step s = .next (consumed s rest)

/-- R97, R23: the `wr` and `rd` statements of the host assembly language reach the register they name. -/
def Obligations.AssemblyReachesTheNamedRegister : Prop :=
  ∀ (p : Params) (r : Reg) (v : Word), r ≠ .reserved →
    ∃ off, off < 0x100 ∧ windowOffset p (stmtAccess p (.wr r v)).addr = some off
      ∧ windowOffset p (stmtAccess p (.rd r)).addr = some off
      ∧ decodeAccess p (stmtAccess p (.wr r v)).op off = some (.writeReg r v)
      ∧ decodeAccess p (stmtAccess p (.rd r)).op off = some (.readReg r)

/-! ## Interrupt, acknowledge, reset -/

/-- R184: irq is IE and DONE. It is low while a command runs in a state that meets the invariant, rises in the step that
completes the command when IE = 1, and drops when DONE or IE is cleared. -/
def Obligations.InterruptFollowsDone : Prop :=
  (∀ s : State, s.irq = true ↔ s.ie = true ∧ s.status.done = true)
  ∧ (∀ s : State, Inv s → s.status.busy = true → s.irq = false)
  ∧ (∀ s : State, finishing s → (engineTurn s).irq = s.ie)
  ∧ (∀ (s t : State) (w : Word) (rest : List Input), step s = .next t →
      (registerWrite s 0x004 w rest ∧ w.getLsbD 1 = true) ∨ (registerWrite s 0x008 w rest ∧ w.getLsbD 0 = false) →
        t.irq = false)

/-- R182: a STATUS write with bits 1 and 2 set clears DONE, ERR and ERRCODE and drops the interrupt line (the host's `ack`,
0xE, clears OVR too); and without it the next accept clears the outcome itself: after an error that kept the key, every command
does exactly what it would have done before the error. -/
def Obligations.ErrorsAreAcknowledged : Prop :=
  (∀ (s : State) (w : Word) (rest : List Input), registerWrite s 0x004 w rest →
    w.getLsbD 1 = true → w.getLsbD 2 = true →
    ∃ t, step s = .next t ∧ t.irq = false
      ∧ t = { consumed s rest with
          status := { s.status with
            done := false, err := false, errcode := 0#4, ovr := if w.getLsbD 3 then false else s.status.ovr } })
  ∧ expand .ack = [.wr .status 0xE#32]
  ∧ ∀ (s : State) (i : Instr) (code : BitVec 4), s.status.busy = false →
      (failed s code).status.busy = false ∧ exec i (failed s code) = exec i s

/-- R190, R191: reset puts every register at its reset value and the engine at IDLE, with no outcome recorded, whatever was
running, and keeps every BUF byte. -/
def Obligations.ResetClearsRegistersAndKeepsBuf : Prop :=
  ∀ (s : State) (rest : List Input), s.inputs = .reset :: rest →
    ∃ t, step s = .next t
      ∧ (∀ k, k < 64 → registerValue t (4 * k) = if k = 63 then 0x43545201#32 else 0#32)
      ∧ t.status.busy = false ∧ t.irq = false
      ∧ (∀ a, t.readByte a = s.readByte a)
      ∧ t.inputs = rest ∧ t.params = s.params

/-- R190, R62: power-up, and the reset that follows it, put every register at its reset value and leave no BUF byte written:
each is the new power-up's draw, a free value. -/
def Obligations.PowerUpDrawsBufAnew : Prop :=
  ∀ (s : State) (rest : List Input), s.inputs = .powerUp :: rest →
    ∃ t, step s = .next t
      ∧ (∀ k, k < 64 → registerValue t (4 * k) = if k = 63 then 0x43545201#32 else 0#32)
      ∧ t.status.busy = false ∧ t.irq = false
      ∧ (∀ a, t.readByte a = Config.powerUpByte (s.powerUps + 1) a)
      ∧ t.inputs = rest ∧ t.params = s.params

/-- R192: after reset the engine is IDLE, interrupts are masked, no key is valid and KEYBITS is 0; NOP and ZERO complete, KDF
and SETKEY raise KEYSIZE, the keystream commands raise NOKEY. -/
def Obligations.EveryCommandIsDefinedFromReset : Prop :=
  State.reset.status.busy = false ∧ State.reset.ie = false ∧ State.reset.status.keyValid = false
    ∧ State.reset.keybits = 0#32
    ∧ (∀ i, i = .nop ∨ i = .zero → agree (runOf 1 i State.reset) (finished State.reset 0))
    ∧ (∀ i, i = .kdf ∨ i = .setkey → exec i State.reset = .next (failedKeysize State.reset))
    ∧ ∀ i, i = .ctr ∨ i = .ctre ∨ i = .ctrd ∨ i = .ksgen → exec i State.reset = .next (failed State.reset 3#4)

/-! ## Rules of the whole machine -/

/-- R190, R192: the state right after reset meets the invariant of Safety.lean. -/
def Obligations.ResetStateMeetsTheInvariant : Prop := Inv State.reset

/-- R24, R22, R67, R107: every step of the machine, whoever takes it, keeps the invariant of Safety.lean. -/
def Obligations.EveryStepKeepsTheInvariant : Prop := ∀ s t : State, Inv s → step s = .next t → Inv t

/-- R105: the engine leaves IDLE only by the accept of a command written to CMD, and leaves RUNNING only by the completion of
its last engine step or by a reset. -/
def Obligations.IdleAndRunningChangeOnlyByAcceptAndCompletion : Prop :=
  ∀ s t : State, step s = .next t →
    (s.status.busy = false → t.status.busy = true →
      ∃ w i rest, registerWrite s 0x000 w rest ∧ decode w = .ok i)
    ∧ (s.status.busy = true → t.status.busy = false →
      resetNext s ∨ (∃ rest, engineNext s rest ∧ finishing s ∧ t.status.done = true))

/-- R201, R34: KS changes only by the last step of a KSGEN or a ZERO, or by a reset. -/
def Obligations.KeystreamRegistersChangeOnlyByKsgenZeroAndReset : Prop :=
  ∀ s t : State, step s = .next t → t.ks ≠ s.ks →
    resetNext s ∨ (∃ rest, engineNext s rest ∧ finishing s ∧ (s.seq.op = .ksgen ∨ s.seq.op = .zero))

/-- R33, R91: KEY changes only by a host KEYj write while BUSY = 0, by the last step of a KDF or a ZERO, or by a reset; and a
host write that changes it clears KEY_VALID. -/
def Obligations.KeyChangesOnlyByHostKdfZeroAndReset : Prop :=
  ∀ s t : State, step s = .next t → t.key ≠ s.key →
    resetNext s
    ∨ (∃ rest, engineNext s rest ∧ finishing s ∧ (s.seq.op = .kdf ∨ s.seq.op = .zero))
    ∨ (s.status.busy = false ∧ t.status.keyValid = false ∧ t.status.klen = 0#2
        ∧ ∃ j w rest, j < 8 ∧ registerWrite s (0x060 + 4 * j) w rest)

/-- R126: while a command runs, NONCE changes only in a CTRD's frame step, before any block, or by a reset. -/
def Obligations.NonceIsConstantWithinACommand : Prop :=
  ∀ s t : State, step s = .next t → s.status.busy = true → (t.nonce0 ≠ s.nonce0 ∨ t.nonce1 ≠ s.nonce1) →
    resetNext s ∨ (∃ rest, engineNext s rest ∧ s.seq.op = .ctrd ∧ s.seq.phase = .frame)

/-- R107, R69, R76, R113: while a command runs, no host access changes a latch, an operand register, a progress register or
a BUF byte. -/
def Obligations.HostCannotDisturbARunningCommand : Prop :=
  ∀ (s t : State) (acc : BusAccess) (rest : List Input), s.inputs = .access acc :: rest → s.status.busy = true →
    step s = .next t →
      t = { s with inputs := rest, hostData := t.hostData, draws := t.draws, ie := t.ie, status := t.status }
      ∧ t.status = { s.status with
          done := t.status.done, err := t.status.err, errcode := t.status.errcode, ovr := t.status.ovr }

/-- R204: at the end of a run BUSY is 0 and no host access is left; every later turn but a reset or a power-up leaves the
observation as it is, and every later turn leaves an end; that the coming turns are a list is the model's choice (log entry
1). -/
def Obligations.EndOfARunKeepsItsObservation : Prop :=
  ∀ s : State, s.ended →
    (s.status.busy = false ∧ ∀ acc rest, s.inputs ≠ .access acc :: rest)
    ∧ ∃ t, step s = .next t ∧ t.ended ∧ (¬ resetNext s → t.observation = s.observation)
end

