-- ==== Sys2Proof/Laws/State.lean ====
section
/-! SUPPORT. Laws/State.lean: each field after each shared update of State, so that no proof unfolds a record update. -/

namespace Sys2Proof.Machine

variable (s : State)

/-! `beginAccept` -/

@[simp] theorem beginAccept_params : s.beginAccept.params = s.params := rfl
@[simp] theorem beginAccept_status : s.beginAccept.status = { s.status with done := false, err := false, errcode := 0#4 } := rfl
@[simp] theorem beginAccept_ie : s.beginAccept.ie = s.ie := rfl
@[simp] theorem beginAccept_keybits : s.beginAccept.keybits = s.keybits := rfl
@[simp] theorem beginAccept_len : s.beginAccept.len = s.len := rfl
@[simp] theorem beginAccept_src : s.beginAccept.src = s.src := rfl
@[simp] theorem beginAccept_dst : s.beginAccept.dst = s.dst := rfl
@[simp] theorem beginAccept_pwdlen : s.beginAccept.pwdlen = s.pwdlen := rfl
@[simp] theorem beginAccept_ctrLo : s.beginAccept.ctrLo = s.ctrLo := rfl
@[simp] theorem beginAccept_ctrHi : s.beginAccept.ctrHi = s.ctrHi := rfl
@[simp] theorem beginAccept_nonce0 : s.beginAccept.nonce0 = s.nonce0 := rfl
@[simp] theorem beginAccept_nonce1 : s.beginAccept.nonce1 = s.nonce1 := rfl
@[simp] theorem beginAccept_progIdx : s.beginAccept.progIdx = 0#32 := rfl
@[simp] theorem beginAccept_progCnt : s.beginAccept.progCnt = 0#32 := rfl
@[simp] theorem beginAccept_pwd : s.beginAccept.pwd = s.pwd := rfl
@[simp] theorem beginAccept_key : s.beginAccept.key = s.key := rfl
@[simp] theorem beginAccept_ks : s.beginAccept.ks = s.ks := rfl
@[simp] theorem beginAccept_seq : s.beginAccept.seq = s.seq := rfl
@[simp] theorem beginAccept_buf : s.beginAccept.buf = s.buf := rfl
@[simp] theorem beginAccept_hostData : s.beginAccept.hostData = s.hostData := rfl
@[simp] theorem beginAccept_inputs : s.beginAccept.inputs = s.inputs := rfl
@[simp] theorem beginAccept_draws : s.beginAccept.draws = s.draws := rfl
@[simp] theorem beginAccept_powerUps : s.beginAccept.powerUps = s.powerUps := rfl

/-! `raiseError` -/

@[simp] theorem raiseError_params (e : ErrCode) : (s.raiseError e).params = s.params := by cases e <;> rfl
@[simp] theorem raiseError_ie (e : ErrCode) : (s.raiseError e).ie = s.ie := by cases e <;> rfl
@[simp] theorem raiseError_keybits (e : ErrCode) : (s.raiseError e).keybits = s.keybits := by cases e <;> rfl
@[simp] theorem raiseError_len (e : ErrCode) : (s.raiseError e).len = s.len := by cases e <;> rfl
@[simp] theorem raiseError_src (e : ErrCode) : (s.raiseError e).src = s.src := by cases e <;> rfl
@[simp] theorem raiseError_dst (e : ErrCode) : (s.raiseError e).dst = s.dst := by cases e <;> rfl
@[simp] theorem raiseError_pwdlen (e : ErrCode) : (s.raiseError e).pwdlen = s.pwdlen := by cases e <;> rfl
@[simp] theorem raiseError_ctrLo (e : ErrCode) : (s.raiseError e).ctrLo = s.ctrLo := by cases e <;> rfl
@[simp] theorem raiseError_ctrHi (e : ErrCode) : (s.raiseError e).ctrHi = s.ctrHi := by cases e <;> rfl
@[simp] theorem raiseError_nonce0 (e : ErrCode) : (s.raiseError e).nonce0 = s.nonce0 := by cases e <;> rfl
@[simp] theorem raiseError_nonce1 (e : ErrCode) : (s.raiseError e).nonce1 = s.nonce1 := by cases e <;> rfl
@[simp] theorem raiseError_progIdx (e : ErrCode) : (s.raiseError e).progIdx = s.progIdx := by cases e <;> rfl
@[simp] theorem raiseError_progCnt (e : ErrCode) : (s.raiseError e).progCnt = s.progCnt := by cases e <;> rfl
@[simp] theorem raiseError_pwd (e : ErrCode) : (s.raiseError e).pwd = s.pwd := by cases e <;> rfl
@[simp] theorem raiseError_key (e : ErrCode) : (s.raiseError e).key = s.key := by cases e <;> rfl
@[simp] theorem raiseError_ks (e : ErrCode) : (s.raiseError e).ks = s.ks := by cases e <;> rfl
@[simp] theorem raiseError_seq (e : ErrCode) : (s.raiseError e).seq = s.seq := by cases e <;> rfl
@[simp] theorem raiseError_buf (e : ErrCode) : (s.raiseError e).buf = s.buf := by cases e <;> rfl
@[simp] theorem raiseError_hostData (e : ErrCode) : (s.raiseError e).hostData = s.hostData := by cases e <;> rfl
@[simp] theorem raiseError_inputs (e : ErrCode) : (s.raiseError e).inputs = s.inputs := by cases e <;> rfl
@[simp] theorem raiseError_draws (e : ErrCode) : (s.raiseError e).draws = s.draws := by cases e <;> rfl
@[simp] theorem raiseError_powerUps (e : ErrCode) : (s.raiseError e).powerUps = s.powerUps := by cases e <;> rfl

/-! `acknowledge` -/

@[simp] theorem acknowledge_params (w : Word) : (s.acknowledge w).params = s.params := rfl
@[simp] theorem acknowledge_status (w : Word) : (s.acknowledge w).status = s.status.writeOneToClear w := rfl
@[simp] theorem acknowledge_ie (w : Word) : (s.acknowledge w).ie = s.ie := rfl
@[simp] theorem acknowledge_keybits (w : Word) : (s.acknowledge w).keybits = s.keybits := rfl
@[simp] theorem acknowledge_len (w : Word) : (s.acknowledge w).len = s.len := rfl
@[simp] theorem acknowledge_src (w : Word) : (s.acknowledge w).src = s.src := rfl
@[simp] theorem acknowledge_dst (w : Word) : (s.acknowledge w).dst = s.dst := rfl
@[simp] theorem acknowledge_pwdlen (w : Word) : (s.acknowledge w).pwdlen = s.pwdlen := rfl
@[simp] theorem acknowledge_ctrLo (w : Word) : (s.acknowledge w).ctrLo = s.ctrLo := rfl
@[simp] theorem acknowledge_ctrHi (w : Word) : (s.acknowledge w).ctrHi = s.ctrHi := rfl
@[simp] theorem acknowledge_nonce0 (w : Word) : (s.acknowledge w).nonce0 = s.nonce0 := rfl
@[simp] theorem acknowledge_nonce1 (w : Word) : (s.acknowledge w).nonce1 = s.nonce1 := rfl
@[simp] theorem acknowledge_progIdx (w : Word) : (s.acknowledge w).progIdx = s.progIdx := rfl
@[simp] theorem acknowledge_progCnt (w : Word) : (s.acknowledge w).progCnt = s.progCnt := rfl
@[simp] theorem acknowledge_pwd (w : Word) : (s.acknowledge w).pwd = s.pwd := rfl
@[simp] theorem acknowledge_key (w : Word) : (s.acknowledge w).key = s.key := rfl
@[simp] theorem acknowledge_ks (w : Word) : (s.acknowledge w).ks = s.ks := rfl
@[simp] theorem acknowledge_seq (w : Word) : (s.acknowledge w).seq = s.seq := rfl
@[simp] theorem acknowledge_buf (w : Word) : (s.acknowledge w).buf = s.buf := rfl
@[simp] theorem acknowledge_hostData (w : Word) : (s.acknowledge w).hostData = s.hostData := rfl
@[simp] theorem acknowledge_inputs (w : Word) : (s.acknowledge w).inputs = s.inputs := rfl
@[simp] theorem acknowledge_draws (w : Word) : (s.acknowledge w).draws = s.draws := rfl
@[simp] theorem acknowledge_powerUps (w : Word) : (s.acknowledge w).powerUps = s.powerUps := rfl

/-! `dropCommand` -/

@[simp] theorem dropCommand_params : s.dropCommand.params = s.params := rfl
@[simp] theorem dropCommand_status : s.dropCommand.status = { s.status with ovr := true } := rfl
@[simp] theorem dropCommand_ie : s.dropCommand.ie = s.ie := rfl
@[simp] theorem dropCommand_keybits : s.dropCommand.keybits = s.keybits := rfl
@[simp] theorem dropCommand_len : s.dropCommand.len = s.len := rfl
@[simp] theorem dropCommand_src : s.dropCommand.src = s.src := rfl
@[simp] theorem dropCommand_dst : s.dropCommand.dst = s.dst := rfl
@[simp] theorem dropCommand_pwdlen : s.dropCommand.pwdlen = s.pwdlen := rfl
@[simp] theorem dropCommand_ctrLo : s.dropCommand.ctrLo = s.ctrLo := rfl
@[simp] theorem dropCommand_ctrHi : s.dropCommand.ctrHi = s.ctrHi := rfl
@[simp] theorem dropCommand_nonce0 : s.dropCommand.nonce0 = s.nonce0 := rfl
@[simp] theorem dropCommand_nonce1 : s.dropCommand.nonce1 = s.nonce1 := rfl
@[simp] theorem dropCommand_progIdx : s.dropCommand.progIdx = s.progIdx := rfl
@[simp] theorem dropCommand_progCnt : s.dropCommand.progCnt = s.progCnt := rfl
@[simp] theorem dropCommand_pwd : s.dropCommand.pwd = s.pwd := rfl
@[simp] theorem dropCommand_key : s.dropCommand.key = s.key := rfl
@[simp] theorem dropCommand_ks : s.dropCommand.ks = s.ks := rfl
@[simp] theorem dropCommand_seq : s.dropCommand.seq = s.seq := rfl
@[simp] theorem dropCommand_buf : s.dropCommand.buf = s.buf := rfl
@[simp] theorem dropCommand_hostData : s.dropCommand.hostData = s.hostData := rfl
@[simp] theorem dropCommand_inputs : s.dropCommand.inputs = s.inputs := rfl
@[simp] theorem dropCommand_draws : s.dropCommand.draws = s.draws := rfl
@[simp] theorem dropCommand_powerUps : s.dropCommand.powerUps = s.powerUps := rfl

/-! `latch` -/

@[simp] theorem latch_params (q : Latches) (n : Nat) : (s.latch q n).params = s.params := rfl
@[simp] theorem latch_status (q : Latches) (n : Nat) : (s.latch q n).status = { s.status with busy := true } := rfl
@[simp] theorem latch_ie (q : Latches) (n : Nat) : (s.latch q n).ie = s.ie := rfl
@[simp] theorem latch_keybits (q : Latches) (n : Nat) : (s.latch q n).keybits = s.keybits := rfl
@[simp] theorem latch_len (q : Latches) (n : Nat) : (s.latch q n).len = s.len := rfl
@[simp] theorem latch_src (q : Latches) (n : Nat) : (s.latch q n).src = s.src := rfl
@[simp] theorem latch_dst (q : Latches) (n : Nat) : (s.latch q n).dst = s.dst := rfl
@[simp] theorem latch_pwdlen (q : Latches) (n : Nat) : (s.latch q n).pwdlen = s.pwdlen := rfl
@[simp] theorem latch_ctrLo (q : Latches) (n : Nat) : (s.latch q n).ctrLo = s.ctrLo := rfl
@[simp] theorem latch_ctrHi (q : Latches) (n : Nat) : (s.latch q n).ctrHi = s.ctrHi := rfl
@[simp] theorem latch_nonce0 (q : Latches) (n : Nat) : (s.latch q n).nonce0 = s.nonce0 := rfl
@[simp] theorem latch_nonce1 (q : Latches) (n : Nat) : (s.latch q n).nonce1 = s.nonce1 := rfl
@[simp] theorem latch_progIdx (q : Latches) (n : Nat) : (s.latch q n).progIdx = 0#32 := rfl
@[simp] theorem latch_progCnt (q : Latches) (n : Nat) : (s.latch q n).progCnt = BitVec.ofNat 32 n := rfl
@[simp] theorem latch_pwd (q : Latches) (n : Nat) : (s.latch q n).pwd = s.pwd := rfl
@[simp] theorem latch_key (q : Latches) (n : Nat) : (s.latch q n).key = s.key := rfl
@[simp] theorem latch_ks (q : Latches) (n : Nat) : (s.latch q n).ks = s.ks := rfl
@[simp] theorem latch_seq (q : Latches) (n : Nat) : (s.latch q n).seq = q := rfl
@[simp] theorem latch_buf (q : Latches) (n : Nat) : (s.latch q n).buf = s.buf := rfl
@[simp] theorem latch_hostData (q : Latches) (n : Nat) : (s.latch q n).hostData = s.hostData := rfl
@[simp] theorem latch_inputs (q : Latches) (n : Nat) : (s.latch q n).inputs = s.inputs := rfl
@[simp] theorem latch_draws (q : Latches) (n : Nat) : (s.latch q n).draws = s.draws + 1 := rfl
@[simp] theorem latch_powerUps (q : Latches) (n : Nat) : (s.latch q n).powerUps = s.powerUps := rfl

/-! `complete` -/

@[simp] theorem complete_params : s.complete.params = s.params := rfl
@[simp] theorem complete_status : s.complete.status = { s.status with busy := false, done := true } := rfl
@[simp] theorem complete_ie : s.complete.ie = s.ie := rfl
@[simp] theorem complete_keybits : s.complete.keybits = s.keybits := rfl
@[simp] theorem complete_len : s.complete.len = s.len := rfl
@[simp] theorem complete_src : s.complete.src = s.src := rfl
@[simp] theorem complete_dst : s.complete.dst = s.dst := rfl
@[simp] theorem complete_pwdlen : s.complete.pwdlen = s.pwdlen := rfl
@[simp] theorem complete_ctrLo : s.complete.ctrLo = s.ctrLo := rfl
@[simp] theorem complete_ctrHi : s.complete.ctrHi = s.ctrHi := rfl
@[simp] theorem complete_nonce0 : s.complete.nonce0 = s.nonce0 := rfl
@[simp] theorem complete_nonce1 : s.complete.nonce1 = s.nonce1 := rfl
@[simp] theorem complete_progIdx : s.complete.progIdx = s.progIdx := rfl
@[simp] theorem complete_progCnt : s.complete.progCnt = s.progCnt := rfl
@[simp] theorem complete_pwd : s.complete.pwd = s.pwd := rfl
@[simp] theorem complete_key : s.complete.key = s.key := rfl
@[simp] theorem complete_ks : s.complete.ks = s.ks := rfl
@[simp] theorem complete_seq : s.complete.seq = Config.freeLatches s.draws := rfl
@[simp] theorem complete_buf : s.complete.buf = s.buf := rfl
@[simp] theorem complete_hostData : s.complete.hostData = s.hostData := rfl
@[simp] theorem complete_inputs : s.complete.inputs = s.inputs := rfl
@[simp] theorem complete_draws : s.complete.draws = s.draws + 1 := rfl
@[simp] theorem complete_powerUps : s.complete.powerUps = s.powerUps := rfl

/-! `memWrite` -/

@[simp] theorem memWrite_params (a : Nat) (bs : List Byte) : (s.memWrite a bs).params = s.params := rfl
@[simp] theorem memWrite_status (a : Nat) (bs : List Byte) : (s.memWrite a bs).status = s.status := rfl
@[simp] theorem memWrite_ie (a : Nat) (bs : List Byte) : (s.memWrite a bs).ie = s.ie := rfl
@[simp] theorem memWrite_keybits (a : Nat) (bs : List Byte) : (s.memWrite a bs).keybits = s.keybits := rfl
@[simp] theorem memWrite_len (a : Nat) (bs : List Byte) : (s.memWrite a bs).len = s.len := rfl
@[simp] theorem memWrite_src (a : Nat) (bs : List Byte) : (s.memWrite a bs).src = s.src := rfl
@[simp] theorem memWrite_dst (a : Nat) (bs : List Byte) : (s.memWrite a bs).dst = s.dst := rfl
@[simp] theorem memWrite_pwdlen (a : Nat) (bs : List Byte) : (s.memWrite a bs).pwdlen = s.pwdlen := rfl
@[simp] theorem memWrite_ctrLo (a : Nat) (bs : List Byte) : (s.memWrite a bs).ctrLo = s.ctrLo := rfl
@[simp] theorem memWrite_ctrHi (a : Nat) (bs : List Byte) : (s.memWrite a bs).ctrHi = s.ctrHi := rfl
@[simp] theorem memWrite_nonce0 (a : Nat) (bs : List Byte) : (s.memWrite a bs).nonce0 = s.nonce0 := rfl
@[simp] theorem memWrite_nonce1 (a : Nat) (bs : List Byte) : (s.memWrite a bs).nonce1 = s.nonce1 := rfl
@[simp] theorem memWrite_progIdx (a : Nat) (bs : List Byte) : (s.memWrite a bs).progIdx = s.progIdx := rfl
@[simp] theorem memWrite_progCnt (a : Nat) (bs : List Byte) : (s.memWrite a bs).progCnt = s.progCnt := rfl
@[simp] theorem memWrite_pwd (a : Nat) (bs : List Byte) : (s.memWrite a bs).pwd = s.pwd := rfl
@[simp] theorem memWrite_key (a : Nat) (bs : List Byte) : (s.memWrite a bs).key = s.key := rfl
@[simp] theorem memWrite_ks (a : Nat) (bs : List Byte) : (s.memWrite a bs).ks = s.ks := rfl
@[simp] theorem memWrite_seq (a : Nat) (bs : List Byte) : (s.memWrite a bs).seq = s.seq := rfl
@[simp] theorem memWrite_buf (a : Nat) (bs : List Byte) : (s.memWrite a bs).buf = Memory.writeBytes s.buf a bs := rfl
@[simp] theorem memWrite_hostData (a : Nat) (bs : List Byte) : (s.memWrite a bs).hostData = s.hostData := rfl
@[simp] theorem memWrite_inputs (a : Nat) (bs : List Byte) : (s.memWrite a bs).inputs = s.inputs := rfl
@[simp] theorem memWrite_draws (a : Nat) (bs : List Byte) : (s.memWrite a bs).draws = s.draws := rfl
@[simp] theorem memWrite_powerUps (a : Nat) (bs : List Byte) : (s.memWrite a bs).powerUps = s.powerUps := rfl

/-! `writeNextIndex` -/

@[simp] theorem writeNextIndex_params (b : Nat) : (s.writeNextIndex b).params = s.params := rfl
@[simp] theorem writeNextIndex_status (b : Nat) : (s.writeNextIndex b).status = s.status := rfl
@[simp] theorem writeNextIndex_ie (b : Nat) : (s.writeNextIndex b).ie = s.ie := rfl
@[simp] theorem writeNextIndex_keybits (b : Nat) : (s.writeNextIndex b).keybits = s.keybits := rfl
@[simp] theorem writeNextIndex_len (b : Nat) : (s.writeNextIndex b).len = s.len := rfl
@[simp] theorem writeNextIndex_src (b : Nat) : (s.writeNextIndex b).src = s.src := rfl
@[simp] theorem writeNextIndex_dst (b : Nat) : (s.writeNextIndex b).dst = s.dst := rfl
@[simp] theorem writeNextIndex_pwdlen (b : Nat) : (s.writeNextIndex b).pwdlen = s.pwdlen := rfl
@[simp] theorem writeNextIndex_ctrLo (b : Nat) : (s.writeNextIndex b).ctrLo = BitVec.ofNat 32 (b % 2 ^ 32) := rfl
@[simp] theorem writeNextIndex_ctrHi (b : Nat) : (s.writeNextIndex b).ctrHi = BitVec.ofNat 32 (b % 2 ^ 64 / 2 ^ 32) := rfl
@[simp] theorem writeNextIndex_nonce0 (b : Nat) : (s.writeNextIndex b).nonce0 = s.nonce0 := rfl
@[simp] theorem writeNextIndex_nonce1 (b : Nat) : (s.writeNextIndex b).nonce1 = s.nonce1 := rfl
@[simp] theorem writeNextIndex_progIdx (b : Nat) : (s.writeNextIndex b).progIdx = s.progIdx := rfl
@[simp] theorem writeNextIndex_progCnt (b : Nat) : (s.writeNextIndex b).progCnt = s.progCnt := rfl
@[simp] theorem writeNextIndex_pwd (b : Nat) : (s.writeNextIndex b).pwd = s.pwd := rfl
@[simp] theorem writeNextIndex_key (b : Nat) : (s.writeNextIndex b).key = s.key := rfl
@[simp] theorem writeNextIndex_ks (b : Nat) : (s.writeNextIndex b).ks = s.ks := rfl
@[simp] theorem writeNextIndex_seq (b : Nat) : (s.writeNextIndex b).seq = s.seq := rfl
@[simp] theorem writeNextIndex_buf (b : Nat) : (s.writeNextIndex b).buf = s.buf := rfl
@[simp] theorem writeNextIndex_hostData (b : Nat) : (s.writeNextIndex b).hostData = s.hostData := rfl
@[simp] theorem writeNextIndex_inputs (b : Nat) : (s.writeNextIndex b).inputs = s.inputs := rfl
@[simp] theorem writeNextIndex_draws (b : Nat) : (s.writeNextIndex b).draws = s.draws := rfl
@[simp] theorem writeNextIndex_powerUps (b : Nat) : (s.writeNextIndex b).powerUps = s.powerUps := rfl

/-! `assertReset` -/

@[simp] theorem assertReset_params : s.assertReset.params = s.params := rfl
@[simp] theorem assertReset_status : s.assertReset.status = State.reset.status := rfl
@[simp] theorem assertReset_ie : s.assertReset.ie = State.reset.ie := rfl
@[simp] theorem assertReset_keybits : s.assertReset.keybits = State.reset.keybits := rfl
@[simp] theorem assertReset_len : s.assertReset.len = State.reset.len := rfl
@[simp] theorem assertReset_src : s.assertReset.src = State.reset.src := rfl
@[simp] theorem assertReset_dst : s.assertReset.dst = State.reset.dst := rfl
@[simp] theorem assertReset_pwdlen : s.assertReset.pwdlen = State.reset.pwdlen := rfl
@[simp] theorem assertReset_ctrLo : s.assertReset.ctrLo = State.reset.ctrLo := rfl
@[simp] theorem assertReset_ctrHi : s.assertReset.ctrHi = State.reset.ctrHi := rfl
@[simp] theorem assertReset_nonce0 : s.assertReset.nonce0 = State.reset.nonce0 := rfl
@[simp] theorem assertReset_nonce1 : s.assertReset.nonce1 = State.reset.nonce1 := rfl
@[simp] theorem assertReset_progIdx : s.assertReset.progIdx = State.reset.progIdx := rfl
@[simp] theorem assertReset_progCnt : s.assertReset.progCnt = State.reset.progCnt := rfl
@[simp] theorem assertReset_pwd : s.assertReset.pwd = State.reset.pwd := rfl
@[simp] theorem assertReset_key : s.assertReset.key = State.reset.key := rfl
@[simp] theorem assertReset_ks : s.assertReset.ks = State.reset.ks := rfl
@[simp] theorem assertReset_seq : s.assertReset.seq = Config.freeLatches s.draws := rfl
@[simp] theorem assertReset_buf : s.assertReset.buf = s.buf := rfl
@[simp] theorem assertReset_hostData : s.assertReset.hostData = State.reset.hostData := rfl
@[simp] theorem assertReset_inputs : s.assertReset.inputs = s.inputs := rfl
@[simp] theorem assertReset_draws : s.assertReset.draws = s.draws + 1 := rfl
@[simp] theorem assertReset_powerUps : s.assertReset.powerUps = s.powerUps := rfl

/-! `powerUp` -/

@[simp] theorem powerUp_params : s.powerUp.params = s.params := rfl
@[simp] theorem powerUp_status : s.powerUp.status = State.reset.status := rfl
@[simp] theorem powerUp_ie : s.powerUp.ie = State.reset.ie := rfl
@[simp] theorem powerUp_keybits : s.powerUp.keybits = State.reset.keybits := rfl
@[simp] theorem powerUp_len : s.powerUp.len = State.reset.len := rfl
@[simp] theorem powerUp_src : s.powerUp.src = State.reset.src := rfl
@[simp] theorem powerUp_dst : s.powerUp.dst = State.reset.dst := rfl
@[simp] theorem powerUp_pwdlen : s.powerUp.pwdlen = State.reset.pwdlen := rfl
@[simp] theorem powerUp_ctrLo : s.powerUp.ctrLo = State.reset.ctrLo := rfl
@[simp] theorem powerUp_ctrHi : s.powerUp.ctrHi = State.reset.ctrHi := rfl
@[simp] theorem powerUp_nonce0 : s.powerUp.nonce0 = State.reset.nonce0 := rfl
@[simp] theorem powerUp_nonce1 : s.powerUp.nonce1 = State.reset.nonce1 := rfl
@[simp] theorem powerUp_progIdx : s.powerUp.progIdx = State.reset.progIdx := rfl
@[simp] theorem powerUp_progCnt : s.powerUp.progCnt = State.reset.progCnt := rfl
@[simp] theorem powerUp_pwd : s.powerUp.pwd = State.reset.pwd := rfl
@[simp] theorem powerUp_key : s.powerUp.key = State.reset.key := rfl
@[simp] theorem powerUp_ks : s.powerUp.ks = State.reset.ks := rfl
@[simp] theorem powerUp_seq : s.powerUp.seq = Config.freeLatches s.draws := rfl
@[simp] theorem powerUp_buf : s.powerUp.buf = [] := rfl
@[simp] theorem powerUp_hostData : s.powerUp.hostData = State.reset.hostData := rfl
@[simp] theorem powerUp_inputs : s.powerUp.inputs = s.inputs := rfl
@[simp] theorem powerUp_draws : s.powerUp.draws = s.draws + 1 := rfl
@[simp] theorem powerUp_powerUps : s.powerUp.powerUps = s.powerUps + 1 := rfl

/-! `raiseError`'s STATUS (60_exceptions.md R180, 41_kdf.md R119) -/

@[simp] theorem raiseError_busy (e : ErrCode) : (s.raiseError e).status.busy = s.status.busy := by cases e <;> rfl
@[simp] theorem raiseError_done (e : ErrCode) : (s.raiseError e).status.done = true := by cases e <;> rfl
@[simp] theorem raiseError_err (e : ErrCode) : (s.raiseError e).status.err = true := by cases e <;> rfl
@[simp] theorem raiseError_ovr (e : ErrCode) : (s.raiseError e).status.ovr = s.status.ovr := by cases e <;> rfl
@[simp] theorem raiseError_errcode (e : ErrCode) : (s.raiseError e).status.errcode = e.code := by cases e <;> rfl
@[simp] theorem raiseError_keyValid (e : ErrCode) :
    (s.raiseError e).status.keyValid = if e = .keysize then false else s.status.keyValid := by cases e <;> rfl
@[simp] theorem raiseError_klen (e : ErrCode) :
    (s.raiseError e).status.klen = if e = .keysize then 0#2 else s.status.klen := by cases e <;> rfl

end Sys2Proof.Machine
end

