-- ==== Sys2Proof/Laws/Accept.lean ====
section
/-! SUPPORT. Laws/Accept.lean: everything a write of a command's word to CMD can do. -/

namespace Sys2Proof.Machine

/-- A command's accept checks. -/
def checkOf (i : Instr) : State → Option ErrCode :=
  match i with
  | .nop => checkNop | .kdf => checkKdf | .setkey => checkSetkey | .ctr => checkCtr
  | .ctre => checkCtre | .ctrd => checkCtrd | .ksgen => checkKsgen | .zero => checkZero

/-- A command's latch. -/
def latchOf (i : Instr) : State → State :=
  match i with
  | .nop => latchNop | .kdf => latchKdf | .setkey => latchSetkey | .ctr => latchCtr Config.bc
  | .ctre => latchCtre Config.bc | .ctrd => latchCtrd Config.bc | .ksgen => latchKsgen Config.bc | .zero => latchZero

/-- A command's block count. -/
def countOf (i : Instr) (s : State) : Nat :=
  match i with
  | .ctr | .ctre => blockCount s.len.toNat
  | .ctrd        => blockCount (s.len.toNat - 8)
  | .nop | .kdf | .setkey | .ksgen | .zero => 0

theorem exec_eq (i : Instr) (s : State) : exec i s = acceptCommand (checkOf i) (latchOf i) s := by cases i <;> rfl

theorem acceptCommand_busy {c : State → Option ErrCode} {l : State → State} {s : State} (h : s.status.busy = true) :
    acceptCommand c l s = .next s.dropCommand := by simp [acceptCommand, h]

theorem acceptCommand_error {c : State → Option ErrCode} {l : State → State} {s : State} {e : ErrCode}
    (h : s.status.busy = false) (he : c s.beginAccept = some e) :
    acceptCommand c l s = .next (s.beginAccept.raiseError e) := by simp [acceptCommand, h, he]

theorem acceptCommand_latch {c : State → Option ErrCode} {l : State → State} {s : State}
    (h : s.status.busy = false) (he : c s.beginAccept = none) :
    acceptCommand c l s = .next (l s.beginAccept) := by simp [acceptCommand, h, he]

/-! ## The accept by its checks -/

/-- The checks read nothing the start of an accept clears. -/
theorem checkOf_beginAccept (i : Instr) (s : State) : checkOf i s.beginAccept = checkOf i s := by cases i <;> rfl

theorem exec_error {i : Instr} {s : State} {e : ErrCode} (hb : s.status.busy = false) (h : checkOf i s = some e) :
    exec i s = .next (s.beginAccept.raiseError e) := by
  rw [exec_eq, acceptCommand_error hb (by rw [checkOf_beginAccept, h])]

theorem exec_latch {i : Instr} {s : State} (hb : s.status.busy = false) (h : checkOf i s = none) :
    exec i s = .next (latchOf i s.beginAccept) := by
  rw [exec_eq, acceptCommand_latch hb (by rw [checkOf_beginAccept, h])]

theorem exec_drop {i : Instr} {s : State} (hb : s.status.busy = true) : exec i s = .next s.dropCommand := by
  rw [exec_eq, acceptCommand_busy hb]

/-! ## When the checks pass -/

theorem checkKsgen_none {s : State} : checkKsgen s = none ↔ s.status.keyValid = true := by
  simp [checkKsgen, State.noKey]

theorem checkCtr_none {s : State} : checkCtr s = none ↔
    s.status.keyValid = true
    ∧ (s.src.toNat + s.len.toNat ≤ s.params.bufBytes ∧ s.dst.toNat + s.len.toNat ≤ s.params.bufBytes)
    ∧ (blockCount s.len.toNat = 0 ∨ s.ctr64 + blockCount s.len.toNat - 1 < 2 ^ 64) := by
  unfold checkCtr
  cases hk : s.status.keyValid with
  | false => simp [State.noKey, hk]
  | true =>
    by_cases hr : s.src.toNat + s.len.toNat ≤ s.params.bufBytes ∧ s.dst.toNat + s.len.toNat ≤ s.params.bufBytes
    · simp [State.noKey, hk, inRange, hr.1, hr.2, ctrOverflow]
      omega
    · rw [if_neg (by simp [State.noKey, hk]), if_pos (by simp [inRange]; omega)]
      simp [hr]

theorem checkCtre_none {s : State} : checkCtre s = none ↔
    s.status.keyValid = true
    ∧ (s.src.toNat + s.len.toNat ≤ s.params.bufBytes ∧ s.dst.toNat + (8 + s.len.toNat) ≤ s.params.bufBytes) := by
  unfold checkCtre
  cases hk : s.status.keyValid with
  | false => simp [State.noKey, hk]
  | true => simp [State.noKey, hk, inRange]

theorem checkCtrd_none {s : State} : checkCtrd s = none ↔
    s.status.keyValid = true ∧ 8 ≤ s.len.toNat
    ∧ (s.src.toNat + s.len.toNat ≤ s.params.bufBytes ∧ s.dst.toNat + (s.len.toNat - 8) ≤ s.params.bufBytes) := by
  unfold checkCtrd
  cases hk : s.status.keyValid with
  | false => simp [State.noKey, hk]
  | true =>
    by_cases h8 : s.len.toNat < 8
    · simp [State.noKey, hk, h8, show ¬ 8 ≤ s.len.toNat by omega]
    · simp [State.noKey, hk, inRange, h8, show 8 ≤ s.len.toNat by omega]

/-! ## Case analysis -/

/-- All a command's write to CMD can do: dropped, refused with an error, or latched. -/
theorem exec_cases {i : Instr} {s t : State} (h : exec i s = .next t) :
    (s.status.busy = true ∧ t = s.dropCommand)
    ∨ (s.status.busy = false ∧ ∃ e, checkOf i s.beginAccept = some e ∧ t = s.beginAccept.raiseError e)
    ∨ (s.status.busy = false ∧ checkOf i s.beginAccept = none ∧ t = latchOf i s.beginAccept) := by
  rw [exec_eq] at h
  cases hb : s.status.busy with
  | true => rw [acceptCommand_busy hb] at h; cases h; exact .inl ⟨rfl, rfl⟩
  | false =>
    cases hc : checkOf i s.beginAccept with
    | some e => rw [acceptCommand_error hb hc] at h; cases h; exact .inr (.inl ⟨rfl, e, rfl, rfl⟩)
    | none => rw [acceptCommand_latch hb hc] at h; cases h; exact .inr (.inr ⟨rfl, rfl, rfl⟩)

theorem exec_next (i : Instr) (s : State) : ∃ t, exec i s = .next t := by
  rw [exec_eq, acceptCommand]
  split
  · exact ⟨_, rfl⟩
  · split <;> exact ⟨_, rfl⟩

/-- Every latch is the shared one, with the command as its op and the command's block count. -/
theorem latchOf_eq (i : Instr) (s : State) : ∃ q, q.op = i ∧ latchOf i s = s.latch q (countOf i s) := by
  cases i <;> exact ⟨_, rfl, rfl⟩

end Sys2Proof.Machine
end

