-- ==== Sys2Proof/Laws/Memory.lean ====
section
/-! SUPPORT. Laws/Memory.lean: BUF as data: what a read after a write gives, and that every memory operation keeps the canonical
form. -/

namespace Sys2Proof.Machine

/-! ## Reading after writing -/

@[simp] theorem find_nil (a : Nat) : Memory.find [] a = none := rfl

theorem find_write (m : Memory) (a x : Nat) (b : Byte) :
    Memory.find (Memory.write m a b) x = if x = a then some b else Memory.find m x := by
  induction m with
  | nil => simp [Memory.write, Memory.find, eq_comm]
  | cons c t ih =>
    obtain ⟨k, d⟩ := c
    simp only [Memory.write]
    split
    · simp [Memory.find, eq_comm]
    · split
      · subst_vars
        by_cases h : x = k <;> simp [Memory.find, h, eq_comm]
      · by_cases h : x = k
        · subst h
          simp [Memory.find, show ¬ x = a by omega]
        · simp [Memory.find, ih, show ¬ k = x by omega]

theorem find_writeBytes (m : Memory) (a x : Nat) (bs : List Byte) :
    Memory.find (Memory.writeBytes m a bs) x
      = if a ≤ x ∧ x < a + bs.length then some (bs.getD (x - a) 0#8) else Memory.find m x := by
  induction bs generalizing m a with
  | nil => simp [Memory.writeBytes, show ¬ (a ≤ x ∧ x < a) by omega]
  | cons b bs ih =>
    simp only [Memory.writeBytes, ih, find_write, List.length_cons]
    by_cases h : a + 1 ≤ x ∧ x < a + 1 + bs.length
    · have e : x - a = (x - (a + 1)) + 1 := by omega
      simp [h, show a ≤ x ∧ x < a + (bs.length + 1) by omega, e]
    · by_cases hx : x = a
      · subst hx; simp
      · rw [if_neg h, if_neg hx, if_neg (by omega)]

/-! ## The canonical form -/

theorem write_bound (m : Memory) (a : Nat) (b : Byte) (c : Host.Cell) (h : c ∈ Memory.write m a b) :
    c.1 = a ∨ c ∈ m := by
  induction m with
  | nil => simp [Memory.write] at h; simp [h]
  | cons d t ih =>
    obtain ⟨k, e⟩ := d
    simp only [Memory.write] at h
    split at h
    · rcases List.mem_cons.mp h with rfl | h
      · exact .inl rfl
      · exact .inr h
    · split at h
      · rcases List.mem_cons.mp h with rfl | h
        · exact .inl rfl
        · exact .inr (List.mem_cons_of_mem _ h)
      · rcases List.mem_cons.mp h with rfl | h
        · exact .inr (List.mem_cons_self ..)
        · exact (ih h).imp_right (List.mem_cons_of_mem _)

theorem write_keeps_wf (m : Memory) (a : Nat) (b : Byte) (h : Memory.wf m) : Memory.wf (Memory.write m a b) := by
  induction m with
  | nil => simp [Memory.write]
  | cons d t ih =>
    obtain ⟨k, e⟩ := d
    obtain ⟨hk, ht⟩ := List.pairwise_cons.mp h
    simp only [Memory.write]
    split
    · refine List.pairwise_cons.mpr ⟨fun c hc => ?_, h⟩
      rcases List.mem_cons.mp hc with rfl | hc
      · assumption
      · exact Nat.lt_trans ‹_› (hk c hc)
    · split
      · subst_vars; exact List.pairwise_cons.mpr ⟨hk, ht⟩
      · refine List.pairwise_cons.mpr ⟨fun c hc => ?_, ih ht⟩
        rcases write_bound t a b c hc with hc | hc
        · simp only; omega
        · exact hk c hc

theorem writeBytes_keeps_wf (m : Memory) (a : Nat) (bs : List Byte) (h : Memory.wf m) :
    Memory.wf (Memory.writeBytes m a bs) := by
  induction bs generalizing m a with
  | nil => exact h
  | cons b bs ih => exact ih _ _ (write_keeps_wf m a b h)

theorem writeBytes_bound (m : Memory) (a : Nat) (bs : List Byte) (c : Host.Cell)
    (h : c ∈ Memory.writeBytes m a bs) : (a ≤ c.1 ∧ c.1 < a + bs.length) ∨ c ∈ m := by
  induction bs generalizing m a with
  | nil => exact .inr h
  | cons b bs ih =>
    rcases ih _ _ h with h | h
    · left; simp only [List.length_cons]; omega
    · rcases write_bound m a b c h with h | h
      · left; simp only [List.length_cons]; omega
      · exact .inr h

theorem find_none_of_lt (m : Memory) (a : Nat) (h : ∀ c ∈ m, a < c.1) : Memory.find m a = none := by
  induction m with
  | nil => rfl
  | cons d t ih =>
    have hd := h d (List.mem_cons_self ..)
    simp only [Memory.find, show ¬ d.1 = a by omega, if_false]
    exact ih fun c hc => h c (List.mem_cons_of_mem _ hc)

/-- Two canonical memories with the same written bytes are the same list. -/
theorem wf_ext (m n : Memory) (hm : Memory.wf m) (hn : Memory.wf n)
    (h : ∀ a, Memory.find m a = Memory.find n a) : m = n := by
  induction m generalizing n with
  | nil =>
    cases n with
    | nil => rfl
    | cons d t => have := h d.1; simp [Memory.find] at this
  | cons c t ih =>
    obtain ⟨hc, ht⟩ := List.pairwise_cons.mp hm
    cases n with
    | nil => have := h c.1; simp [Memory.find] at this
    | cons d u =>
      obtain ⟨hd, hu⟩ := List.pairwise_cons.mp hn
      obtain ⟨k, x⟩ := c
      obtain ⟨l, y⟩ := d
      have hk : k = l := by
        rcases Nat.lt_trichotomy k l with lt | e | lt
        · have := h k
          have e2 : Memory.find ((l, y) :: u) k = none :=
            find_none_of_lt _ _ fun c hc => (List.mem_cons.mp hc).elim (fun e => e ▸ lt) fun hc => lt.trans (hd c hc)
          rw [e2] at this; simp [Memory.find] at this
        · exact e
        · have := h l
          have e2 : Memory.find ((k, x) :: t) l = none :=
            find_none_of_lt _ _ fun c h' => (List.mem_cons.mp h').elim (fun e => e ▸ lt) fun h' => lt.trans (hc c h')
          rw [e2] at this; simp [Memory.find] at this
      subst hk
      have hxy : x = y := by simpa [Memory.find] using h k
      subst hxy
      refine congrArg _ (ih u ht hu fun a => ?_)
      by_cases ha : k = a
      · subst ha
        rw [find_none_of_lt t k hc, find_none_of_lt u k hd]
      · simpa [Memory.find, ha] using h a

/-! ## Bytes of a state -/

theorem readByte_memWrite (s : State) (a x : Nat) (bs : List Byte) :
    (s.memWrite a bs).readByte x
      = if a ≤ x ∧ x < a + bs.length then bs.getD (x - a) 0#8 else s.readByte x := by
  simp only [State.readByte, memWrite_buf, memWrite_powerUps, find_writeBytes]
  split <;> rfl

theorem readByte_congr {s t : State} (hb : t.buf = s.buf) (hp : t.powerUps = s.powerUps) (a : Nat) :
    t.readByte a = s.readByte a := by simp only [State.readByte, hb, hp]

@[simp] theorem memRead_length (s : State) (a n : Nat) : (s.memRead a n).length = n := by simp [State.memRead]

theorem memRead_getD (s : State) (a n k : Nat) (h : k < n) : (s.memRead a n).getD k 0#8 = s.readByte (a + k) := by
  simp [State.memRead, h]

end Sys2Proof.Machine
end

