-- ==== Sys2Proof/Laws/Bus.lean ====
section
/-! SUPPORT. Laws/Bus.lean: what a step is for each kind of next turn, and what a host access decodes to. -/

namespace Sys2Proof.Machine

/-! ## The window -/

theorem windowOffset_base (p : Params) {off : Nat} (h : off < 0x100000) : windowOffset p (p.base + off) = some off := by
  unfold windowOffset Params.base
  rw [if_pos (by omega)]
  congr 1
  omega

theorem windowOffset_some {p : Params} {a off : Nat} (h : windowOffset p a = some off) :
    off < 0x100000 ∧ a = p.base + off := by
  unfold windowOffset at h
  split at h
  · cases h; unfold Params.base; omega
  · cases h

theorem windowOffset_none {p : Params} {a : Nat} (h : a < p.base ∨ 0x100000 ≤ a - p.base) :
    windowOffset p a = none := by
  unfold Params.base at h
  unfold windowOffset
  exact if_neg (by omega)

theorem bufBytes_le (p : Params) : p.bufBytes ≤ 0x80000 := by
  have h : 6 + p.bufExp.val ≤ 19 := by have := p.bufExp.isLt; omega
  calc p.bufBytes ≤ 2 ^ 19 := Nat.pow_le_pow_right (by decide) h
    _ = 0x80000 := by decide

/-! ## Steps -/

theorem step_empty {s : State} (h : s.inputs = []) : step s = .next (engineTurn s) := by simp [step, h]

theorem step_cons {s : State} {i : Input} {rest : List Input} (h : s.inputs = i :: rest) :
    step s = takeInput i { s with inputs := rest } := by simp [step, h]

/-- A 32-bit access at a register offset. -/
theorem step_register {s : State} {off : Nat} {op : BusOp} {rest : List Input}
    (h : s.inputs = .access ⟨s.params.base + off, op⟩ :: rest) (ho : off < 0x100) (h4 : off % 4 = 0) :
    step s = match regAction (regAt (off / 4)) op with
      | none     => .fault (.busError off (8 * op.bytes) op.isWrite)
      | some act => runAction act { s with inputs := rest } := by
  rw [step_cons h]
  have hw := windowOffset_base s.params (show off < 0x100000 by omega)
  cases hr : regAction (regAt (off / 4)) op <;> simp [takeInput, hostAccess, hw, decodeAccess, ho, h4, hr]

theorem step_writeReg {s : State} {off : Nat} {w : Word} {rest : List Input}
    (h : s.inputs = .access ⟨s.params.base + off, .write32 w⟩ :: rest) (ho : off < 0x100) (h4 : off % 4 = 0) :
    step s = runAction (.writeReg (regAt (off / 4)) w) { s with inputs := rest } := step_register h ho h4

theorem step_readReg {s : State} {off : Nat} {rest : List Input}
    (h : s.inputs = .access ⟨s.params.base + off, .read32⟩ :: rest) (ho : off < 0x100) (h4 : off % 4 = 0) :
    step s = .next { s with inputs := rest, hostData := some (readReg (regAt (off / 4)) s) } := step_register h ho h4

/-- A write of `w` to CMD. -/
theorem step_writeCmd {s : State} {w : Word} {rest : List Input}
    (h : s.inputs = .access ⟨s.params.base + 0, .write32 w⟩ :: rest) :
    step s = writeCmd w { s with inputs := rest, hostData := none } := by
  rw [step_writeReg h (by decide) (by decide)]; rfl

/-- An aligned BUF access. -/
theorem step_buf {s : State} {a : Nat} {op : BusOp} {rest : List Input}
    (h : s.inputs = .access ⟨s.params.base + (0x80000 + a), op⟩ :: rest) (ha : a % op.bytes = 0)
    (hr : a + op.bytes ≤ s.params.bufBytes) :
    step s = runAction (bufAction a op) { s with inputs := rest } := by
  have hb := bufBytes_le s.params
  have hn : 0 < op.bytes := by cases op <;> simp [BusOp.bytes]
  have hal : (0x80000 + a) % op.bytes = 0 := by cases op <;> simp [BusOp.bytes] at ha ⊢ <;> omega
  rw [step_cons h]
  simp only [takeInput, hostAccess, windowOffset_base s.params (show 0x80000 + a < 0x100000 by omega), decodeAccess]
  rw [if_neg (by omega), if_pos ⟨by omega, by omega, hal⟩, Nat.add_sub_cancel_left]

end Sys2Proof.Machine
end

