-- ==== Sys2Proof/Laws/Decode.lean ====
section
/-! SUPPORT. Laws/Decode.lean: the byte orders are inverse to each other. -/

namespace Sys2Proof

theorem fromLe32_le32 (w : Word) : fromLe32 (le32 w) = w := by
  apply BitVec.eq_of_getLsbD_eq
  intro i hi
  simp only [fromLe32, le32, List.getD_cons_zero, List.getD_cons_succ, BitVec.getLsbD_append, BitVec.getLsbD_extractLsb']
  by_cases h1 : i < 8
  · simp [h1]
  · by_cases h2 : i < 16
    · simp [h1, show i - 8 < 8 by omega, show 8 + (i - 8) = i by omega]
    · by_cases h3 : i < 24
      · simp [h1, show ¬ i - 8 < 8 by omega, show i - 8 - 8 < 8 by omega, show 16 + (i - 8 - 8) = i by omega]
      · simp [h1, show ¬ i - 8 < 8 by omega, show ¬ i - 8 - 8 < 8 by omega, show i - 8 - 8 - 8 < 8 by omega,
          show 24 + (i - 8 - 8 - 8) = i by omega]

/-- Bit `8 k + i` of `from_le32` is bit `i` of byte `k`. -/
theorem fromLe32_getLsbD (a b c d : Byte) (n : Nat) :
    (fromLe32 [a, b, c, d]).getLsbD n =
      if n < 8 then a.getLsbD n else if n - 8 < 8 then b.getLsbD (n - 8)
      else if n - 8 - 8 < 8 then c.getLsbD (n - 8 - 8) else d.getLsbD (n - 8 - 8 - 8) := by
  simp only [fromLe32, List.getD_cons_zero, List.getD_cons_succ, BitVec.getLsbD_append]

theorem le32_fromLe32 (a b c d : Byte) : le32 (fromLe32 [a, b, c, d]) = [a, b, c, d] := by
  have h : ∀ (k : Nat) (x : Byte), (∀ i, i < 8 → (fromLe32 [a, b, c, d]).getLsbD (k + i) = x.getLsbD i) →
      (fromLe32 [a, b, c, d]).extractLsb' k 8 = x := by
    intro k x hx
    apply BitVec.eq_of_getLsbD_eq
    intro i hi
    simp only [BitVec.getLsbD_extractLsb', hi, hx i hi, decide_true, Bool.true_and]
  have e0 := h 0 a fun i hi => by
    rw [fromLe32_getLsbD, if_pos (by omega)]; congr 1; omega
  have e1 := h 8 b fun i hi => by
    rw [fromLe32_getLsbD, if_neg (by omega), if_pos (by omega)]; congr 1; omega
  have e2 := h 16 c fun i hi => by
    rw [fromLe32_getLsbD, if_neg (by omega), if_neg (by omega), if_pos (by omega)]; congr 1; omega
  have e3 := h 24 d fun i hi => by
    rw [fromLe32_getLsbD, if_neg (by omega), if_neg (by omega), if_neg (by omega)]; congr 1; omega
  simp only [le32, e0, e1, e2, e3]

@[simp] theorem le32_length (w : Word) : (le32 w).length = 4 := rfl
@[simp] theorem be32_length (w : Word) : (be32 w).length = 4 := rfl

end Sys2Proof
end

