-- ==== Sys2Proof/Laws/Engine.lean ====
section
/-! SUPPORT. Laws/Engine.lean: what each engine step does, and what a run of block steps does. -/

namespace Sys2Proof.Machine

/-! ## The kinds of engine turn -/

theorem engineTurn_idle {s : State} (h : s.status.busy = false) : engineTurn s = s := by simp [engineTurn, h]

theorem engineTurn_frame {s : State} (h : s.status.busy = true) (hp : s.seq.phase = .frame) :
    engineTurn s = s.frameStep := by simp [engineTurn, h, State.engineStepWith, hp]

theorem engineTurn_block {s : State} (h : s.status.busy = true) (hp : s.seq.phase = .blocks)
    (hi : s.progIdx.toNat < s.progCnt.toNat) : engineTurn s = s.blockStep Config.bc := by
  simp [engineTurn, h, State.engineStepWith, hp, BitVec.lt_def, hi]

theorem engineTurn_lastBlock {s : State} (h : s.status.busy = true) (hp : s.seq.phase = .blocks)
    (hi : ¬ s.progIdx.toNat < s.progCnt.toNat) : engineTurn s = s.finishStep Config.bc := by
  simp [engineTurn, h, State.engineStepWith, hp, BitVec.lt_def, hi]

theorem engineTurn_finish {s : State} (h : s.status.busy = true) (hp : s.seq.phase = .finish) :
    engineTurn s = s.finishStep Config.bc := by simp [engineTurn, h, State.engineStepWith, hp]

/-- All an engine turn can do. -/
theorem engineTurn_cases (s : State) :
    (s.status.busy = false ∧ engineTurn s = s)
    ∨ (s.status.busy = true ∧ s.seq.phase = .frame ∧ engineTurn s = s.frameStep)
    ∨ (s.status.busy = true ∧ s.seq.phase = .blocks ∧ s.progIdx.toNat < s.progCnt.toNat
        ∧ engineTurn s = s.blockStep Config.bc)
    ∨ (s.status.busy = true ∧ (s.seq.phase = .finish ∨ s.seq.phase = .blocks ∧ ¬ s.progIdx.toNat < s.progCnt.toNat)
        ∧ engineTurn s = s.finishStep Config.bc) := by
  cases h : s.status.busy with
  | false => exact .inl ⟨rfl, engineTurn_idle h⟩
  | true =>
    cases hp : s.seq.phase with
    | frame => exact .inr (.inl ⟨rfl, rfl, engineTurn_frame h hp⟩)
    | blocks =>
      by_cases hi : s.progIdx.toNat < s.progCnt.toNat
      · exact .inr (.inr (.inl ⟨rfl, rfl, hi, engineTurn_block h hp hi⟩))
      · exact .inr (.inr (.inr ⟨rfl, .inr ⟨rfl, hi⟩, engineTurn_lastBlock h hp hi⟩))
    | finish => exact .inr (.inr (.inr ⟨rfl, .inl rfl, engineTurn_finish h hp⟩))

/-! ## Frame step -/

/-- Outside CTRE and CTRD the frame step only moves on to BLOCKS. -/
theorem frameStep_cases (s : State) :
    (s.seq.op = .ctre ∧ s.frameStep
        = { s.memWrite s.dst.toNat s.nonceBytes with seq := { s.seq with phase := .blocks } })
    ∨ (s.seq.op = .ctrd ∧ s.frameStep
        = { s with
            nonce0 := fromLe32 (s.memRead s.src.toNat 4)
            nonce1 := fromLe32 (s.memRead (s.src.toNat + 4) 4)
            seq := { s.seq with phase := .blocks } })
    ∨ (s.seq.op ≠ .ctre ∧ s.seq.op ≠ .ctrd ∧ s.frameStep = { s with seq := { s.seq with phase := .blocks } }) := by
  cases h : s.seq.op <;> simp [State.frameStep, h, frameOp, frameCtre, frameCtrd, frameNop, frameKdf, frameSetkey,
    frameCtr, frameKsgen, frameZero]

/-! ## Block step -/

@[simp] theorem xorFold_length (inp : List Byte) (ks : Block) : (xorFold inp ks).length = min inp.length 16 := by
  simp [xorFold]

theorem xorFold_getD (inp : List Byte) (ks : Block) (k : Nat) (h : k < inp.length) (h16 : k < 16) :
    (xorFold inp ks).getD k 0#8 = inp.getD k 0#8 ^^^ ks.toList.getD k 0#8 := by
  have hk : k < ks.toList.length := by simpa using h16
  simp [xorFold, List.getD_eq_getElem?_getD, List.getElem?_zipWith, List.getElem?_eq_getElem h,
    List.getElem?_eq_getElem hk]

theorem blockLen_le (l n i : Nat) : blockLen l n i ≤ 16 := by unfold blockLen; split <;> omega

theorem blockLen_pos (l n i : Nat) : 0 < blockLen l n i := by unfold blockLen; split <;> omega

/-- A block of a message of `l` bytes lies inside the message. -/
theorem block_inside {l i : Nat} (h : i < blockCount l) : 16 * i + blockLen l (blockCount l) i ≤ l := by
  unfold blockCount at *; unfold blockLen; split <;> omega

theorem block_inside_eq {l i : Nat} (h : i < blockCount l) :
    16 * i + blockLen l (blockCount l) i = min (16 * (i + 1)) l := by
  unfold blockCount at *; unfold blockLen; split <;> omega

theorem blockStep_eq (bc : BlockCipher) (s : State) :
    s.blockStep bc = { s with buf := (s.blockStep bc).buf, progIdx := s.progIdx + 1#32 } := rfl

/-- Every byte after a block step. -/
theorem blockStep_readByte (bc : BlockCipher) (s : State) (a : Nat) :
    (s.blockStep bc).readByte a =
      if s.seq.dst.toNat + 16 * s.progIdx.toNat ≤ a
          ∧ a < s.seq.dst.toNat + 16 * s.progIdx.toNat
              + blockLen s.seq.len.toNat s.progCnt.toNat s.progIdx.toNat then
        s.readByte (s.seq.src.toNat + 16 * s.progIdx.toNat + (a - (s.seq.dst.toNat + 16 * s.progIdx.toNat)))
          ^^^ (s.keystreamBlock bc s.progIdx.toNat).toList.getD (a - (s.seq.dst.toNat + 16 * s.progIdx.toNat)) 0#8
      else s.readByte a := by
  have hl := blockLen_le s.seq.len.toNat s.progCnt.toNat s.progIdx.toNat
  have e : (s.blockStep bc).readByte a = (s.memWrite (s.seq.dst.toNat + 16 * s.progIdx.toNat)
      (xorFold (s.memRead (s.seq.src.toNat + 16 * s.progIdx.toNat)
        (blockLen s.seq.len.toNat s.progCnt.toNat s.progIdx.toNat))
        (s.keystreamBlock bc s.progIdx.toNat))).readByte a := rfl
  rw [e, readByte_memWrite]
  simp only [xorFold_length, memRead_length, Nat.min_eq_left hl]
  split
  · rw [xorFold_getD _ _ _ (by simp; omega) (by omega), memRead_getD _ _ _ _ (by omega)]
  · rfl

/-! ## A run of block steps -/

/-- The keystream byte a running command pairs with its data byte `x` (43_keystream.md R135, R139). -/
def runningKeystream (s : State) (x : Nat) : Byte :=
  (s.keystreamBlock Config.bc (x / 16)).toList.getD (x % 16) 0#8

/-- `j` block steps from the first block, whatever the overlap: of the state only PROG_IDX and BUF move, and of BUF only the
output of these blocks. -/
theorem blocks_frame {s : State} (hb : s.status.busy = true) (hp : s.seq.phase = .blocks) (h0 : s.progIdx = 0#32)
    (hN : s.progCnt.toNat = blockCount s.seq.len.toNat) :
    ∀ j, j ≤ s.progCnt.toNat →
      engineTurn^[j] s = { s with buf := (engineTurn^[j] s).buf, progIdx := BitVec.ofNat 32 j }
      ∧ ∀ a, ¬ (s.seq.dst.toNat ≤ a ∧ a < s.seq.dst.toNat + min (16 * j) s.seq.len.toNat) →
          (engineTurn^[j] s).readByte a = s.readByte a := by
  intro j
  induction j with
  | zero => exact fun _ => ⟨by simp [h0.symm], fun a _ => rfl⟩
  | succ j ih =>
    intro hj
    obtain ⟨he, hr⟩ := ih (by omega)
    have hjlt : j < 2 ^ 32 := by have := s.progCnt.isLt; omega
    rw [Function.iterate_succ_apply']
    generalize hu : engineTurn^[j] s = u at he hr ⊢
    have hidx : u.progIdx.toNat = j := by rw [he]; simp; omega
    have hcnt : u.progCnt = s.progCnt := by rw [he]
    have hseq : u.seq = s.seq := by rw [he]
    have hst : u.status = s.status := by rw [he]
    rw [engineTurn_block (by rw [hst]; exact hb) (by rw [hseq]; exact hp) (by rw [hidx, hcnt]; omega)]
    constructor
    · have e1 := blockStep_eq Config.bc u
      have e2 : u.progIdx + 1#32 = BitVec.ofNat 32 (j + 1) := by rw [he]; simp [BitVec.ofNat_add]
      rw [e2] at e1
      generalize (u.blockStep Config.bc) = v at e1 ⊢
      rw [e1, he]
    · intro a ha
      have hb1 := block_inside_eq (show j < blockCount s.seq.len.toNat by omega)
      rw [blockStep_readByte, hidx, hcnt, hseq, hN, if_neg (by omega), hr a (by omega)]

/-- `j` block steps from the first block in a layout 43_keystream.md R144 calls exact: the first `16j` data bytes are
transformed. -/
theorem blocks_run {s : State} (hb : s.status.busy = true) (hp : s.seq.phase = .blocks) (h0 : s.progIdx = 0#32)
    (hN : s.progCnt.toNat = blockCount s.seq.len.toNat)
    (hl : s.seq.dst.toNat ≤ s.seq.src.toNat ∨ s.seq.src.toNat + s.seq.len.toNat ≤ s.seq.dst.toNat) :
    ∀ j, j ≤ s.progCnt.toNat → ∀ a,
      s.seq.dst.toNat ≤ a ∧ a < s.seq.dst.toNat + min (16 * j) s.seq.len.toNat →
        (engineTurn^[j] s).readByte a =
          s.readByte (s.seq.src.toNat + (a - s.seq.dst.toNat)) ^^^ runningKeystream s (a - s.seq.dst.toNat) := by
  intro j
  induction j with
  | zero => intro _ a ha; omega
  | succ j ih =>
    intro hj a ha
    have hr := ih (by omega)
    obtain ⟨he, hf⟩ := blocks_frame hb hp h0 hN j (by omega)
    have hjlt : j < 2 ^ 32 := by have := s.progCnt.isLt; omega
    rw [Function.iterate_succ_apply']
    generalize hu : engineTurn^[j] s = u at he hr hf ⊢
    have hidx : u.progIdx.toNat = j := by rw [he]; simp; omega
    have hcnt : u.progCnt = s.progCnt := by rw [he]
    have hseq : u.seq = s.seq := by rw [he]
    have hst : u.status = s.status := by rw [he]
    have hk : ∀ x, u.keystreamBlock Config.bc x = s.keystreamBlock Config.bc x := by intro x; rw [he]; rfl
    rw [engineTurn_block (by rw [hst]; exact hb) (by rw [hseq]; exact hp) (by rw [hidx, hcnt]; omega)]
    have hb1 := block_inside_eq (show j < blockCount s.seq.len.toNat by omega)
    rw [blockStep_readByte, hidx, hcnt, hseq, hk, hN]
    by_cases hA : s.seq.dst.toNat + 16 * j ≤ a
        ∧ a < s.seq.dst.toNat + 16 * j + blockLen s.seq.len.toNat (blockCount s.seq.len.toNat) j
    · have hx : s.seq.src.toNat + 16 * j + (a - (s.seq.dst.toNat + 16 * j))
          = s.seq.src.toNat + (a - s.seq.dst.toNat) := by omega
      have hlen := blockLen_le s.seq.len.toNat (blockCount s.seq.len.toNat) j
      rw [if_pos hA, hx, hf _ (by omega)]
      unfold runningKeystream
      rw [show (a - s.seq.dst.toNat) / 16 = j by omega,
        show (a - s.seq.dst.toNat) % 16 = a - (s.seq.dst.toNat + 16 * j) by omega]
    · rw [if_neg hA, hr a (by omega)]

/-- All block steps and the finish step of a command whose blocks begin: BUF is some `b` that differs only in the output
range, and there, in an exact layout, is the transformed input. -/
theorem blocks_finish {s : State} (hb : s.status.busy = true) (hp : s.seq.phase = .blocks) (h0 : s.progIdx = 0#32)
    (hN : s.progCnt.toNat = blockCount s.seq.len.toNat) :
    (∀ k, k ≤ s.progCnt.toNat → (engineTurn^[k] s).status.busy = true)
    ∧ ∃ b, engineTurn^[s.progCnt.toNat + 1] s
          = (finishOp Config.bc s.seq.op { s with buf := b, progIdx := s.progCnt }).complete
      ∧ (∀ a, ¬ (s.seq.dst.toNat ≤ a ∧ a < s.seq.dst.toNat + s.seq.len.toNat) →
          ({ s with buf := b } : State).readByte a = s.readByte a)
      ∧ ((s.seq.dst.toNat ≤ s.seq.src.toNat ∨ s.seq.src.toNat + s.seq.len.toNat ≤ s.seq.dst.toNat) →
          ∀ a, s.seq.dst.toNat ≤ a ∧ a < s.seq.dst.toNat + s.seq.len.toNat →
            ({ s with buf := b } : State).readByte a =
              s.readByte (s.seq.src.toNat + (a - s.seq.dst.toNat)) ^^^ runningKeystream s (a - s.seq.dst.toNat)) := by
  have hm : min (16 * s.progCnt.toNat) s.seq.len.toNat = s.seq.len.toNat := by rw [hN]; unfold blockCount; omega
  obtain ⟨he, hf⟩ := blocks_frame hb hp h0 hN _ (Nat.le_refl _)
  have hpw : (engineTurn^[s.progCnt.toNat] s).powerUps = s.powerUps := by rw [he]
  have hread : ∀ a, ({ s with buf := (engineTurn^[s.progCnt.toNat] s).buf } : State).readByte a
      = (engineTurn^[s.progCnt.toNat] s).readByte a := fun a => by unfold State.readByte; rw [hpw]
  refine ⟨fun k hk => by rw [(blocks_frame hb hp h0 hN k hk).1]; exact hb, (engineTurn^[s.progCnt.toNat] s).buf, ?_,
    fun a ha => ?_, fun hl a ha => ?_⟩
  · rw [Function.iterate_succ_apply']
    generalize engineTurn^[s.progCnt.toNat] s = u at he ⊢
    rw [engineTurn_lastBlock (by rw [he]; exact hb) (by rw [he]; exact hp) (by rw [he]; simp)]
    have ho : u.seq.op = s.seq.op := by rw [he]
    unfold State.finishStep
    rw [ho]
    generalize u.buf = b at he ⊢
    rw [he]
    simp
  · rw [hm] at hf
    rw [hread, hf a ha]
  · have hr := blocks_run hb hp h0 hN hl _ (Nat.le_refl _) a
    rw [hm] at hr
    rw [hread, hr ha]

/-! ## Finish step -/

@[simp] theorem finishStep_busy (bc : BlockCipher) (s : State) : (s.finishStep bc).status.busy = false := rfl
@[simp] theorem finishStep_done (bc : BlockCipher) (s : State) : (s.finishStep bc).status.done = true := rfl

/-- What a finish step leaves of the state, whatever the command: no finish action writes these. -/
theorem finishStep_frame (bc : BlockCipher) (s : State) :
    s.finishStep bc = { s with
      status := (s.finishStep bc).status
      pwdlen := (s.finishStep bc).pwdlen
      ctrLo  := (s.finishStep bc).ctrLo
      ctrHi  := (s.finishStep bc).ctrHi
      pwd    := (s.finishStep bc).pwd
      key    := (s.finishStep bc).key
      ks     := (s.finishStep bc).ks
      seq    := Config.freeLatches s.draws
      draws  := s.draws + 1 } := by
  unfold State.finishStep
  cases s.seq.op <;> rfl

end Sys2Proof.Machine
end

