-- ==== Sys2Proof/Laws/Operands.lean ====
section
/-! SUPPORT. Laws/Operands.lean: words and their bytes, the byte views of the register files, the counter block. -/

namespace Sys2Proof.Machine

/-! ## Words and bytes -/

theorem extractLsb'_byte (w : Word) (k : Nat) : w.extractLsb' (8 * k) 8 = BitVec.ofNat 8 (w.toNat / 256 ^ k) := by
  apply BitVec.eq_of_toNat_eq
  simp [Nat.shiftRight_eq_div_pow, pow_mul]

@[simp] theorem enc32_length (o : ByteOrder) (w : Word) : (enc32 o w).length = 4 := by cases o <;> rfl

theorem enc32_getD (o : ByteOrder) (w : Word) (k : Nat) (h : k < 4) :
    (enc32 o w).getD k 0#8 = BitVec.ofNat 8 (w.toNat / 256 ^ (if o = .le then k else 3 - k)) := by
  have b0 := extractLsb'_byte w 0
  have b1 := extractLsb'_byte w 1
  have b2 := extractLsb'_byte w 2
  have b3 := extractLsb'_byte w 3
  have : k = 0 ∨ k = 1 ∨ k = 2 ∨ k = 3 := by omega
  cases o <;> rcases this with rfl | rfl | rfl | rfl <;> simp only [enc32, le32, be32] <;>
    first | exact b0 | exact b1 | exact b2 | exact b3

theorem enc32_injective (o : ByteOrder) (v w : Word) (h : enc32 o v = enc32 o w) : v = w := by
  rw [← fromLe32_le32 v, ← fromLe32_le32 w]
  congr 1
  cases o
  · exact h
  · exact congrArg List.reverse h

/-- `from_le32` as a number. -/
theorem fromLe32_toNat (l : List Byte) : (fromLe32 l).toNat =
    (l.getD 0 0#8).toNat + 256 * (l.getD 1 0#8).toNat + 256 ^ 2 * (l.getD 2 0#8).toNat
      + 256 ^ 3 * (l.getD 3 0#8).toNat := by
  unfold fromLe32
  generalize l.getD 0 0#8 = a
  generalize l.getD 1 0#8 = b
  generalize l.getD 2 0#8 = c
  generalize l.getD 3 0#8 = d
  simp only [BitVec.toNat_append, Nat.shiftLeft_eq, Nat.mul_comm _ (2 ^ 8)]
  rw [← Nat.two_pow_add_eq_or_of_lt c.isLt, ← Nat.two_pow_add_eq_or_of_lt b.isLt, ← Nat.two_pow_add_eq_or_of_lt a.isLt]
  omega

/-! ## Register files -/

/-- Byte `k` of a file built from bytes is byte `k`. -/
theorem wordByte_fileOfBytes {n : Nat} (f : Nat → Byte) (k : Nat) (h : k < 4 * n) :
    wordByte ((fileOfBytes n f).toList.getD (k / 4) 0#32) (k % 4) = f k := by
  have hw : (fileOfBytes n f).toList.getD (k / 4) 0#32 = wordOfBytes f (k / 4) := by
    simp [fileOfBytes, List.getD_eq_getElem?_getD, show k / 4 < n by omega]
  have hb := le32_fromLe32 (f (4 * (k / 4))) (f (4 * (k / 4) + 1)) (f (4 * (k / 4) + 2)) (f (4 * (k / 4) + 3))
  have he : fromLe32 [f (4 * (k / 4)), f (4 * (k / 4) + 1), f (4 * (k / 4) + 2), f (4 * (k / 4) + 3)]
      = wordOfBytes f (k / 4) := rfl
  rw [he] at hb
  simp only [le32, List.cons.injEq] at hb
  obtain ⟨h0, h1, h2, h3, _⟩ := hb
  rw [hw]
  unfold wordByte
  have hm : k % 4 = 0 ∨ k % 4 = 1 ∨ k % 4 = 2 ∨ k % 4 = 3 := by omega
  rcases hm with h | h | h | h <;> rw [h]
  · rw [show 8 * 0 = 0 from rfl, h0]; congr 1; omega
  · rw [show 8 * 1 = 8 from rfl, h1]; congr 1; omega
  · rw [show 8 * 2 = 16 from rfl, h2]; congr 1; omega
  · rw [show 8 * 3 = 24 from rfl, h3]; congr 1; omega

theorem le32_fromLe32_memRead (s : State) (a : Nat) : le32 (fromLe32 (s.memRead a 4)) = s.memRead a 4 := by
  have h : s.memRead a 4 = [s.readByte (a + 0), s.readByte (a + 1), s.readByte (a + 2), s.readByte (a + 3)] := by
    simp [State.memRead, List.range_succ]
  rw [h, le32_fromLe32]

/-! ## The counter -/

theorem ctrHi_append_ctrLo_toNat (s : State) : (s.ctrHi ++ s.ctrLo).toNat = s.ctr64 := by
  rw [BitVec.toNat_append, Nat.shiftLeft_eq, Nat.mul_comm, ← Nat.two_pow_add_eq_or_of_lt s.ctrLo.isLt]; rfl

theorem ctr64_lt (s : State) : s.ctr64 < 2 ^ 64 := by
  rw [← ctrHi_append_ctrLo_toNat]; exact (s.ctrHi ++ s.ctrLo).isLt

theorem indexHi_toNat {b : Nat} (h : b < 2 ^ 64) : (indexHi b).toNat = b / 2 ^ 32 := by unfold indexHi; simp; omega

theorem indexLo_toNat (b : Nat) : (indexLo b).toNat = b % 2 ^ 32 := by unfold indexLo; simp

theorem blockCount_lt {l : Nat} (h : l < 2 ^ 32) : blockCount l ≤ 2 ^ 28 := by unfold blockCount; omega

theorem counterBlock_getD (o : ByteOrder) (n : List Byte) (b j : Nat) (hn : n.length = 8) (hj : j < 16) :
    (counterBlock o n b).toList.getD j 0#8 =
      if j < 8 then n.getD j 0#8
      else if j < 12 then (enc32 o (indexHi b)).getD (j - 8) 0#8
      else (enc32 o (indexLo b)).getD (j - 12) 0#8 := by
  have h : (counterBlock o n b).toList.getD j 0#8 = (counterBytes o n b).getD j 0#8 := by
    simp [counterBlock, List.getD_eq_getElem?_getD, hj]
  rw [h]
  unfold counterBytes
  simp only [List.getD_eq_getElem?_getD, List.append_assoc]
  split
  · rw [List.getElem?_append_left (by omega)]
  · rw [List.getElem?_append_right (by omega), hn]
    split
    · rw [List.getElem?_append_left (by rw [enc32_length]; omega)]
    · rw [List.getElem?_append_right (by rw [enc32_length]; omega), enc32_length]; rfl

end Sys2Proof.Machine
end

