-- ==== Sys2Proof/Laws/PerInstr.lean ====
section
/-! SUPPORT. Laws/PerInstr.lean: what is said of every command as syntax, one lemma per command. -/

namespace Sys2Proof.Laws.Encoding

/-- The decoder gives back the command whose word the encoder wrote, from the word and from its four bytes; the word's RSV
is 0 and its OPC is the command's (30_encoding.md R90, R92); and the command is well formed. -/
def Statement (i : Instr) : Prop :=
  decode (encode i) = .ok i ∧ decodeBytes (le32 (encode i)) = .ok i
    ∧ cmdFields (encode i) = ⟨0#28, opcode i⟩ ∧ (cmdFields (encode i)).wf = true ∧ i.wf = true

theorem nop : Statement .nop := by unfold Statement; decide
theorem kdf : Statement .kdf := by unfold Statement; decide
theorem setkey : Statement .setkey := by unfold Statement; decide
theorem ctr : Statement .ctr := by unfold Statement; decide
theorem ctre : Statement .ctre := by unfold Statement; decide
theorem ctrd : Statement .ctrd := by unfold Statement; decide
theorem ksgen : Statement .ksgen := by unfold Statement; decide
theorem zero : Statement .zero := by unfold Statement; decide

end Sys2Proof.Laws.Encoding
end

