-- ==== Sys2Proof/Laws/Step.lean ====
section
/-! SUPPORT. Laws/Step.lean: everything one step of the machine can do, whoever takes it. -/

namespace Sys2Proof.Machine

/-- Everything a host access that is no bus error can do. -/
theorem hostAccess_cases {acc : BusAccess} {s t : State} (h : hostAccess acc s = .next t) :
    (t = { s with hostData := none })
    ∨ (∃ v, t = { s with hostData := some v })
    ∨ (s.status.busy = true ∧ ∃ v, t = { s with hostData := some v, draws := s.draws + 1 })
    ∨ (∃ w, acc = ⟨s.params.base + 0, .write32 w⟩ ∧ writeCmd w { s with hostData := none } = .next t)
    ∨ (∃ k w, 0 < k ∧ k < 64 ∧ acc = ⟨s.params.base + 4 * k, .write32 w⟩
        ∧ t = writeReg (regAt k) w { s with hostData := none })
    ∨ (∃ a bs, a + bs.length ≤ s.params.bufBytes ∧ t = writeBuf a bs { s with hostData := none }) := by
  obtain ⟨addr, op⟩ := acc
  simp only [hostAccess] at h
  cases hw : windowOffset s.params addr with
  | none => simp only [hw] at h; cases h; exact .inl rfl
  | some off =>
    simp only [hw] at h
    obtain ⟨_, rfl⟩ := windowOffset_some hw
    cases hd : decodeAccess s.params op off with
    | none => simp only [hd] at h; cases h
    | some act =>
      simp only [hd] at h
      unfold decodeAccess at hd
      split at hd
      · split at hd
        · obtain ⟨k, rfl⟩ : ∃ k, off = 4 * k := ⟨off / 4, by omega⟩
          rw [show 4 * k / 4 = k by omega] at hd
          cases op <;> simp only [regAction, reduceCtorEq, Option.some.injEq] at hd
          case read32 => subst hd; cases h; exact .inr (.inl ⟨_, rfl⟩)
          case write32 w =>
            subst hd
            by_cases hk : k = 0
            · subst hk
              exact .inr (.inr (.inr (.inl ⟨w, rfl, h⟩)))
            · have hr : regAt k ≠ .cmd := by
                have : ∀ k, k < 64 → k ≠ 0 → regAt k ≠ .cmd := by decide
                exact this k (by omega) hk
              refine .inr (.inr (.inr (.inr (.inl ⟨k, w, by omega, by omega, rfl, ?_⟩))))
              revert h hr
              cases regAt k <;> intro h hr <;> first | exact absurd rfl hr | (cases h; rfl)
        · cases hd
      · split at hd
        · rename_i hb
          cases hd
          have hread : ∀ a n, readBuf a n s = t →
              (∃ v, t = { s with hostData := some v })
                ∨ (s.status.busy = true ∧ ∃ v, t = { s with hostData := some v, draws := s.draws + 1 }) := by
            intro a n h
            unfold readBuf at h
            split at h
            · exact .inr ⟨‹_›, _, h.symm⟩
            · exact .inl ⟨_, h.symm⟩
          cases op <;> simp only [bufAction, runAction, Host.Outcome.next.injEq, BusOp.bytes] at h hb
          case read8 | read16 | read32 =>
            rcases hread _ _ h with h | h
            · exact .inr (.inl h)
            · exact .inr (.inr (.inl h))
          case write8 | write16 | write32 =>
            refine .inr (.inr (.inr (.inr (.inr ⟨_, _, ?_, h.symm⟩))))
            simp only [List.length_cons, List.length_nil, le32_length]
            omega
        · cases hd

/-- Everything a write to CMD can do. -/
theorem writeCmd_cases {w : Word} {s t : State} (h : writeCmd w s = .next t) :
    (s.status.busy = true ∧ t = s.dropCommand)
    ∨ (s.status.busy = false ∧ ∃ e, t = s.beginAccept.raiseError e)
    ∨ (s.status.busy = false ∧ ∃ i, decode w = .ok i ∧ checkOf i s.beginAccept = none ∧ t = latchOf i s.beginAccept) := by
  unfold writeCmd at h
  split at h
  · cases h; exact .inl ⟨‹_›, rfl⟩
  · rename_i hb
    have hb : s.status.busy = false := by simpa using hb
    split at h
    · rcases exec_cases h with ⟨h1, _⟩ | ⟨_, e, _, rfl⟩ | ⟨_, hc, rfl⟩
      · rw [hb] at h1; cases h1
      · exact .inr (.inl ⟨hb, e, rfl⟩)
      · exact .inr (.inr ⟨hb, _, ‹_›, hc, rfl⟩)
    · cases h; exact .inr (.inl ⟨hb, .illegal, rfl⟩)

/-- Everything one step can do, by whose turn it is. -/
theorem step_cases {s t : State} (h : step s = .next t) :
    (∃ rest, (s.inputs = .engine :: rest ∨ s.inputs = [] ∧ rest = []) ∧ t = engineTurn { s with inputs := rest })
    ∨ (∃ rest, s.inputs = .reset :: rest ∧ t = ({ s with inputs := rest } : State).assertReset)
    ∨ (∃ rest, s.inputs = .powerUp :: rest ∧ t = ({ s with inputs := rest } : State).powerUp)
    ∨ (∃ acc rest, s.inputs = .access acc :: rest ∧ hostAccess acc { s with inputs := rest } = .next t) := by
  cases hi : s.inputs with
  | nil =>
    rw [step_empty hi] at h; cases h
    refine .inl ⟨[], .inr ⟨rfl, rfl⟩, ?_⟩
    rw [← hi]
  | cons i rest =>
    rw [step_cons hi] at h
    cases i with
    | access acc => exact .inr (.inr (.inr ⟨acc, rest, rfl, h⟩))
    | engine => cases h; exact .inl ⟨rest, .inl rfl, rfl⟩
    | reset => cases h; exact .inr (.inl ⟨rest, rfl, rfl⟩)
    | powerUp => cases h; exact .inr (.inr (.inl ⟨rest, rfl, rfl⟩))

/-! ## The end of a run -/

@[simp] theorem isAccess_access (a : BusAccess) : (Input.access a).isAccess = true := rfl
@[simp] theorem isAccess_engine : Input.engine.isAccess = false := rfl
@[simp] theorem isAccess_reset : Input.reset.isAccess = false := rfl
@[simp] theorem isAccess_powerUp : Input.powerUp.isAccess = false := rfl

/-- The observation does not see the coming turns. -/
@[simp] theorem observation_inputs (s : State) (r : List Input) : State.observation { s with inputs := r } = s.observation := rfl

/-- All a step can do at the end of a run: pass, or reset the CTRKS with or without a power-up. -/
theorem step_ended {s t : State} (he : s.ended) (h : step s = .next t) :
    (∃ r, t = { s with inputs := r })
    ∨ (∃ r, s.inputs = .reset :: r ∧ t = State.assertReset { s with inputs := r })
    ∨ (∃ r, s.inputs = .powerUp :: r ∧ t = State.powerUp { s with inputs := r }) := by
  obtain ⟨hi, hb⟩ := he
  cases hs : s.inputs with
  | nil => rw [step_empty hs, engineTurn_idle hb] at h; cases h; exact .inl ⟨s.inputs, rfl⟩
  | cons i r =>
    rw [step_cons hs] at h
    cases i with
    | access a => simpa using hi (.access a) (by simp [hs])
    | engine => rw [takeInput, engineTurn_idle (s := { s with inputs := r }) hb] at h; cases h; exact .inl ⟨r, rfl⟩
    | reset => cases h; exact .inr (.inl ⟨r, rfl, rfl⟩)
    | powerUp => cases h; exact .inr (.inr ⟨r, rfl, rfl⟩)

end Sys2Proof.Machine
end

