-- ==== Sys2Proof/Tests/Slice0.lean ====
section
/-! SUPPORT. Tests/Slice0.lean: the smoke tests of WellFormed, words written out from the encoding, one-step tests on values of
95_test_vectors.md, and a witness for the hypotheses of every obligation. -/

namespace Sys2Proof.Tests
open Sys2Proof.Machine Sys2Proof.Claims

/-! ## WellFormed refuses what is ill formed (30_encoding.md R90, R92, R93; the bounds of R98) -/

theorem test_wf_refuses_rsv : CmdFields.wf ⟨1#28, 3#4⟩ = false := by decide
theorem test_wf_refuses_top_rsv_bit : CmdFields.wf ⟨0x8000000#28, 0#4⟩ = false := by decide
theorem test_wf_refuses_opc_8 : CmdFields.wf ⟨0#28, 8#4⟩ = false := by decide
theorem test_wf_refuses_opc_15 : CmdFields.wf ⟨0#28, 15#4⟩ = false := by decide
theorem test_wf_accepts_zero_word : CmdFields.wf ⟨0#28, 7#4⟩ = true := by decide
theorem test_every_command_is_wf : ∀ f ∈ [Instr.nop, .kdf, .setkey, .ctr, .ctre, .ctrd, .ksgen, .zero],
    f.wf = true ∧ (cmdFields (encode f)).wf = true := by decide
theorem test_setpwd_refuses_33_bytes : pseudoWf (.setpwd (List.replicate 33 0#8)) = false := by decide
theorem test_setkeybytes_refuses_20_bytes : pseudoWf (.setkeybytes (List.replicate 20 0#8)) = false := by decide

/-! ## Words written out from the bit patterns of spec/opcode_table.json -/

theorem test_decode_nop    : decode 0b00000000000000000000000000000000#32 = .ok .nop := by decide
theorem test_decode_kdf    : decode 0b00000000000000000000000000000001#32 = .ok .kdf := by decide
theorem test_decode_setkey : decode 0b00000000000000000000000000000010#32 = .ok .setkey := by decide
theorem test_decode_ctr    : decode 0b00000000000000000000000000000011#32 = .ok .ctr := by decide
theorem test_decode_ctre   : decode 0b00000000000000000000000000000100#32 = .ok .ctre := by decide
theorem test_decode_ctrd   : decode 0b00000000000000000000000000000101#32 = .ok .ctrd := by decide
theorem test_decode_ksgen  : decode 0b00000000000000000000000000000110#32 = .ok .ksgen := by decide
theorem test_decode_zero   : decode 0b00000000000000000000000000000111#32 = .ok .zero := by decide

/-- V-ILL-1. -/
theorem test_decode_illegal : decode 0x8#32 = .error .reservedOpcode ∧ decode 0xF#32 = .error .reservedOpcode
    ∧ decode 0x10#32 = .error .reservedBits ∧ decode 0x13#32 = .error .reservedBits
    ∧ decode 0x80000000#32 = .error .reservedBits := by decide

/-- The bytes of a CTRD word, and a string that is no whole word (R90). -/
theorem test_decode_bytes : decodeBytes [0x05#8, 0x00#8, 0x00#8, 0x00#8] = .ok .ctrd
    ∧ decodeBytes [0x05#8, 0x00#8] = .error .wrongLength := by decide

theorem test_decode_table_word : decodeTableWord 32 3 = some .ctr ∧ decodeTableWord 32 9 = none := by decide

/-! ## Small states -/

/-- `s` with one host access as its only turn. BASE is 0 after reset, so the address is the window offset. -/
def hostDoes (off : Nat) (op : BusOp) (s : State) : State := { s with inputs := [.access ⟨off, op⟩] }

/-- `s` after its next step. -/
def after (s : State) : State :=
  match step s with
  | .next t => t
  | _       => s

/-- What the host reads there. -/
def hostReads (off : Nat) (op : BusOp) (s : State) : Option Word := (after (hostDoes off op s)).hostData

/-- An idle CTRKS with a valid 16-byte key, five bytes to transform from 0 to 16. -/
def ready : State :=
  { State.reset with status := ⟨false, false, false, false, true, 1#2, 0#4⟩, keybits := 128#32, len := 5#32, dst := 16#32 }

/-- A running command with these latches, of one block. -/
def running (q : Latches) : State :=
  { ready with status := ⟨true, false, false, false, true, 1#2, 0#4⟩, progCnt := 1#32, seq := q }

/-- The latches of a CTR of `ready`. -/
def ctrLatches : Latches := ⟨.ctr, .blocks, 0#32, 16#32, 5#32, 0#64, ⟨[]⟩⟩

/-- The latches of a CTRE of `ready`. -/
def ctreLatches : Latches := ⟨.ctre, .frame, 0#32, 24#32, 5#32, 0#64, ⟨[]⟩⟩

/-- The latches of a command without blocks. -/
def finishLatches (op : Instr) : Latches := ⟨op, .finish, 0#32, 0#32, 0#32, 0#64, ⟨[]⟩⟩

/-- The TOY cipher of 95_test_vectors.md section 1.3. -/
def toy : BlockCipher where
  expandKey k := ⟨k⟩
  encryptBlock b k := Vector.ofFn fun j : Fin 16 =>
    b.toList.getD ((j.val + 1) % 16) 0#8
      ^^^ ((List.range k.bytes.length).map fun m => if m % 16 = j.val then k.bytes.getD m 0#8 else 0#8).foldl (· ^^^ ·) 0#8
      ^^^ 0x5C#8

/-- `NONCE_A` of 95_test_vectors.md. -/
def nonceA : List Byte := [0xf4#8, 0x01#8, 0xef#8, 0xbe#8, 0x00#8, 0xf1#8, 0x53#8, 0x65#8]

/-! ## One-step tests; expected values from 95_test_vectors.md -/

/-- V-NOP-1. -/
theorem test_nop_accept : (after (hostDoes 0x000 (.write32 0#32) State.reset)).status.toWord = 0x1#32 := by decide
theorem test_nop_engine_step :
    (engineTurn { running (finishLatches .nop) with progCnt := 0#32 }).status.toWord = 0x32#32 := by decide

/-- V-ILL-1. -/
theorem test_illegal : (after (hostDoes 0x000 (.write32 0x13#32) State.reset)).status.toWord = 0x106#32 := by decide

/-- V-KEYSIZE. -/
theorem test_kdf_keysize :
    (after (hostDoes 0x000 (.write32 1#32) { ready with keybits := 100#32 })).status.toWord = 0x206#32 := by decide

/-- V-KDF-9: "password1", 128. -/
theorem test_kdf_derives_toy_key :
    (finishKdf toy { State.reset with
        keybits := 128#32
        pwdlen := 9#6
        pwd := #v[0x73736170#32, 0x64726F77#32, 0x31#32, 0#32, 0#32, 0#32, 0#32, 0#32] }).key
      = #v[0x585c4e4d#32, 0x094a4144#32, 0x5c5c5c6d#32, 0x2c5c5c5c#32, 0#32, 0#32, 0#32, 0#32] := by decide

/-- The stretch of a 24-byte key repeats the first 8 bytes (R117). -/
theorem test_stretch : stretchKey (Vector.ofFn fun j : Fin 16 => BitVec.ofNat 8 j.val) 24
    = [0, 1, 2, 3, 4, 5, 6, 7, 8, 9, 10, 11, 12, 13, 14, 15, 0, 1, 2, 3, 4, 5, 6, 7] := by decide

/-- V-SETKEY-1. -/
theorem test_setkey_engine_step :
    (engineTurn { running (finishLatches .setkey) with status := ⟨true, false, false, false, false, 0#2, 0#4⟩ }).status.toWord
      = 0x32#32 := by decide

/-- V-SETKEY-2. -/
theorem test_key_write_clears_key_valid :
    (after (hostDoes 0x060 (.write32 0#32) ready)).status.toWord = 0x0#32 := by decide

/-- V-ZERO-1. -/
theorem test_zero_engine_step :
    let t := engineTurn { running (finishLatches .zero) with key := Vector.replicate 8 7#32, pwdlen := 9#6 }
    t.status.toWord = 0x2#32 ∧ t.key = Vector.replicate 8 0#32 ∧ t.pwdlen = 0#6 ∧ t.keybits = 128#32 := by decide

/-- V-CB-1, b = 0x0123456789ABCDEF, in both orders. -/
theorem test_counter_block_le : (counterBytes .le nonceA 0x0123456789ABCDEF).drop 8
    = [0x67, 0x45, 0x23, 0x01, 0xef, 0xcd, 0xab, 0x89] := by decide
theorem test_counter_block_be : (counterBytes .be nonceA 0x0123456789ABCDEF).drop 8
    = [0x01, 0x23, 0x45, 0x67, 0x89, 0xab, 0xcd, 0xef] := by decide

/-- V-CB-3. -/
theorem test_ctr_overflow : ctrOverflow (2 ^ 64 - 1) 1 = false ∧ ctrOverflow (2 ^ 64 - 1) 2 = true
    ∧ ctrOverflow (2 ^ 64 - 1) 0 = false := by decide

/-- V-CTR-9: one keystream byte per lane, index 2^32 + 5. -/
theorem test_toy_keystream :
    (toy.encryptBlock (counterBlock .le nonceA (2 ^ 32 + 5)) ⟨List.replicate 16 0#8⟩).toList
      = [0x5d, 0xb3, 0xe2, 0x5c, 0xad, 0x0f, 0x39, 0x5d, 0x5c, 0x5c, 0x5c, 0x59, 0x5c, 0x5c, 0x5c, 0xa8] := by decide

/-- V-CTR-9: "hello" under the TOY key of V-KDF-9. -/
theorem test_block_step_xors :
    let s : State := { running { ctrLatches with sched := ⟨[0x4d, 0x4e, 0x5c, 0x58, 0x44, 0x41, 0x4a, 0x09, 0x6d, 0x5c, 0x5c,
        0x5c, 0x5c, 0x5c, 0x5c, 0x2c]⟩ } with
      nonce0 := 0xBEEF01F4#32
      nonce1 := 0x6553F100#32
      buf := [(0, 0x68#8), (1, 0x65#8), (2, 0x6c#8), (3, 0x6c#8), (4, 0x6f#8)] }
    (s.blockStep toy).buf.drop 5 = [(16, 0x78#8), (17, 0x98#8), (18, 0xd2#8), (19, 0x68#8), (20, 0x86#8)]
      ∧ (s.blockStep toy).progIdx = 1#32 := by decide

/-- V-CTR-4: index 2^64 - 1 is written back as 0. -/
theorem test_ctr_writes_back_zero :
    let t := engineTurn { running { ctrLatches with b0 := 0xFFFFFFFFFFFFFFFF#64 } with progIdx := 1#32, ctrLo := 9#32 }
    t.ctrLo = 0#32 ∧ t.ctrHi = 0#32 ∧ t.status.toWord = 0x32#32 := by decide

/-- V-CTR-7 and V-CTR-8: the exact range sum, and NOKEY before RANGE. -/
theorem test_ctr_range :
    (after (hostDoes 0x000 (.write32 3#32) { ready with src := 0xFFFFFFF0#32, len := 0x20#32 })).status.toWord
      = 0x536#32 := by decide
theorem test_ctr_nokey_first :
    (after (hostDoes 0x000 (.write32 3#32) { State.reset with src := 0xFFFFFFF0#32, len := 0x20#32 })).status.toWord
      = 0x306#32 := by decide

/-- V-CTRE-1: the frame's first 8 bytes. -/
theorem test_ctre_frame_step :
    (engineTurn { running ctreLatches with nonce0 := 0xBEEF01F4#32, nonce1 := 0x6553F100#32 }).buf
      = [(16, 0xf4#8), (17, 0x01#8), (18, 0xef#8), (19, 0xbe#8), (20, 0x00#8), (21, 0xf1#8), (22, 0x53#8), (23, 0x65#8)] := by
  decide
theorem test_ctre_range :
    (after (hostDoes 0x000 (.write32 4#32) { ready with dst := 0xFFF0#32, len := 9#32 })).status.toWord = 0x536#32 := by decide

/-- V-CTRD-1: the nonce of the frame. -/
theorem test_ctrd_frame_step :
    let t := engineTurn { running { ctreLatches with op := .ctrd } with
      src := 0#32
      buf := [(0, 0xf4#8), (1, 0x01#8), (2, 0xef#8), (3, 0xbe#8), (4, 0x00#8), (5, 0xf1#8), (6, 0x53#8), (7, 0x65#8)] }
    t.nonce0 = 0xBEEF01F4#32 ∧ t.nonce1 = 0x6553F100#32 := by decide
theorem test_ctrd_malformed :
    (after (hostDoes 0x000 (.write32 5#32) { ready with len := 3#32, src := 0xFFFFFFFF#32 })).status.toWord
      = 0x436#32 := by decide

/-- KS0 of a TOY block: byte 0 is the least significant (R36). -/
theorem test_ksgen_word_order :
    (finishKsgen toy { running { finishLatches .ksgen with sched := ⟨List.replicate 16 0#8⟩ } with
        nonce0 := 0xBEEF01F4#32, nonce1 := 0x6553F100#32 }).ks[0] = 0x5ce2b35d#32 := by decide

/-- V-OVR-1: the dropped command. -/
theorem test_cmd_while_busy :
    (after (hostDoes 0x000 (.write32 0#32) (running ctrLatches))).status.toWord = 0x39#32 := by decide
theorem test_len_write_while_busy :
    (after (hostDoes 0x010 (.write32 1#32) (running ctrLatches))).len = 5#32 := by decide

/-- V-W1C-1. -/
theorem test_status_w1c_done :
    (after (hostDoes 0x004 (.write32 0x2#32) { State.reset with status := ⟨false, true, true, false, false, 0#2, 2#4⟩ })).status.toWord
      = 0x204#32 := by decide
theorem test_status_w1c_ignores_ro :
    (after (hostDoes 0x004 (.write32 0x11#32) ready)).status.toWord = 0x30#32 := by decide

/-- V-BUS-1: each is a bus error. -/
theorem test_bus_errors : ∀ a ∈ [(0x004, BusOp.read8), (0x008, .write16 0#16), (0x002, .read32), (0x100, .read32),
    (0x7FFFC, .write32 0#32), (0x80001, .read16), (0x90000, .read8)],
    decodeAccess Config.edition a.2 a.1 = none := by decide
theorem test_bus_error_names_the_access :
    step (hostDoes 0x80001 .read16 State.reset) = .fault (.busError 0x80001 16 false) := by rfl

/-- V-BUS-1's reads that are no errors. -/
theorem test_reserved_and_cmd_read_zero :
    hostReads 0x038 .read32 ready = some 0#32 ∧ hostReads 0x000 .read32 ready = some 0#32
      ∧ hostReads 0x0FC .read32 ready = some 0x43545201#32 := by decide

/-- V-BUF-1. -/
theorem test_buf_little_endian :
    let s := after (hostDoes 0x80010 (.write32 0x11223344#32) State.reset)
    hostReads 0x80010 .read8 s = some 0x44#32 ∧ hostReads 0x80013 .read8 s = some 0x11#32
      ∧ hostReads 0x80012 .read16 s = some 0x1122#32 := by decide

/-- R29: PWDLEN keeps 6 bits. -/
theorem test_pwdlen_keeps_six_bits :
    hostReads 0x01C .read32 (after (hostDoes 0x01C (.write32 0xFFFFFFFF#32) ready)) = some 0x3F#32 := by decide

/-- V-IRQ-1. -/
theorem test_irq : ({ ready with ie := true, status := ⟨false, true, false, false, true, 1#2, 0#4⟩ } : State).irq = true
    ∧ (after (hostDoes 0x008 (.write32 0#32)
        { ready with ie := true, status := ⟨false, true, false, false, true, 1#2, 0#4⟩ })).irq = false := by decide

/-- V-RESET-1: a reset during a command. -/
theorem test_reset_during_command :
    let t := after { running ctrLatches with inputs := [.reset], buf := [(16, 1#8)] }
    t.status.toWord = 0#32 ∧ t.buf = [(16, 1#8)] ∧ t.len = 0#32 := by decide

/-- P1's statements 1 and 6 and a pseudo-instruction, as the accesses the program's table lists. -/
theorem test_assemble_wr : assembleLine 0 Config.edition "wr KEYBITS, 128 ; the key size".toList
    = some [⟨0x00C, .write32 0x80#32⟩] := by decide +kernel
theorem test_assemble_setnonce : assembleLine 0 Config.edition "setnonce 0xf4 0x01 0xef 0xbe 0 0xf1 0x53 0x65".toList
    = some [⟨0x028, .write32 0xBEEF01F4#32⟩, ⟨0x02C, .write32 0x6553F100#32⟩] := by decide +kernel

/-- R140: ms, random, seconds. -/
theorem test_host_nonce : hostNonce 0x01F4#16 0xBEEF#16 0x6553F100 = (0xBEEF01F4#32, 0x6553F100#32) := by decide

/-- A placed command is the next step's command. -/
theorem test_with_fetch_word : (after (State.reset.withFetchWord 32 7)).seq.op = .zero := by decide

theorem test_reset_memory_canonical : Memory.wf State.reset.buf := List.Pairwise.nil

/-! ## Witnesses: states and operands that meet every hypothesis of each obligation, at the boundaries of its clauses -/

/-- A running CTR, whatever BUF holds at 16. -/
def runningCtr (x : Byte) : State := { running ctrLatches with buf := [(0, 0#8), (16, x)] }

/-- A running CTRE, before its frame step. -/
def runningCtre : State := { running ctreLatches with buf := [(16, 0#8)], nonce0 := 1#32 }

/-- A running CTRD, before its frame step. -/
def runningCtrd : State :=
  { running ⟨.ctrd, .frame, 8#32, 16#32, 5#32, 0#64, ⟨[]⟩⟩ with len := 13#32, buf := [(0, 1#8)] }

theorem runningCtr_inv (x : Byte) : Inv (runningCtr x) :=
  ⟨(⟨by decide, by decide, by decide, by decide, by decide⟩ : StatusInv (running ctrLatches).status),
    (by decide : (running ctrLatches).progIdx.toNat ≤ (running ctrLatches).progCnt.toNat
      ∧ (running ctrLatches).progCnt.toNat ≤ 2 ^ 28),
    by simp [Memory.wf, runningCtr],
    by
      intro c hc
      simp [runningCtr] at hc
      have : c.1 < (running ctrLatches).params.bufBytes := by rcases hc with rfl | rfl <;> (simp only; decide)
      exact this,
    fun _ => ⟨rfl, rfl, (by decide : (running ctrLatches).progCnt.toNat = blockCount (running ctrLatches).seq.len.toNat),
      (by decide : (running ctrLatches).seq.src.toNat + (running ctrLatches).seq.len.toNat
        ≤ (running ctrLatches).params.bufBytes),
      (by decide : (running ctrLatches).seq.dst.toNat + (running ctrLatches).seq.len.toNat
        ≤ (running ctrLatches).params.bufBytes),
      (by decide : (running ctrLatches).seq.b0.toNat + (running ctrLatches).progCnt.toNat ≤ 2 ^ 64)⟩⟩

/-- What the block step leaves at 16 does not depend on what stood there. -/
theorem runningCtr_output (x : Byte) : (engineTurn (runningCtr x)).readByte 16
    = 0#8 ^^^ ((running ctrLatches).keystreamBlock Config.bc 0).toList.getD 0 0#8 := by
  rw [engineTurn_block rfl rfl (by show 0 < 1; decide), blockStep_readByte, if_pos (by show 16 ≤ 16 ∧ 16 < 21; decide)]
  rfl

theorem runningCtre_inv : Inv runningCtre :=
  ⟨⟨by decide, by decide, by decide, by decide, by decide⟩, by decide, by simp [Memory.wf, runningCtre],
    by intro c hc; simp [runningCtre] at hc; subst hc; decide,
    fun _ => ⟨.inl ⟨rfl, rfl⟩, ⟨rfl, by decide, by decide, by decide, by decide⟩, rfl, by decide⟩⟩

theorem runningCtrd_inv : Inv runningCtrd :=
  ⟨⟨by decide, by decide, by decide, by decide, by decide⟩, by decide, by simp [Memory.wf, runningCtrd],
    by intro c hc; simp [runningCtrd] at hc; subst hc; decide,
    fun _ => ⟨.inl ⟨rfl, rfl⟩, ⟨rfl, by decide, by decide, by decide, by decide⟩, rfl, by decide⟩⟩

theorem witness_IllegalWordRaisesIllegal :
    (registerWrite (hostDoes 0 (.write32 0x10#32) ready) 0x000 0x10#32 [] ∧ (0x10#32).extractLsb' 4 28 ≠ 0#28)
    ∧ (registerWrite (hostDoes 0 (.write32 8#32) ready) 0x000 8#32 [] ∧ 8 ≤ ((8#32).extractLsb' 0 4).toNat)
    ∧ (registerWrite (hostDoes 0 (.write32 7#32) ready) 0x000 7#32 []
        ∧ ¬ ((7#32).extractLsb' 4 28 ≠ 0#28 ∨ 8 ≤ ((7#32).extractLsb' 0 4).toNat))
    ∧ ready.status.busy = false := ⟨⟨rfl, by decide⟩, ⟨rfl, by decide⟩, ⟨rfl, by decide⟩, rfl⟩

theorem witness_StepRunsTheDecodedCommand :
    (hostDoes 0 (.write32 3#32) ready).inputs = cmdWrite ready.params 3#32 :: [] ∧ ready.status.busy = false
    ∧ decode 3#32 = .ok .ctr ∧ decodeTableWord 32 7 = some .zero := ⟨rfl, rfl, by decide, by decide⟩

theorem witness_CommandWhileBusyOnlySetsStickyOvr :
    (registerWrite (hostDoes 0 (.write32 9#32) (running ctrLatches)) 0x000 9#32 [] ∧ (running ctrLatches).status.busy = true)
    ∧ ∃ s t, step s = .next t ∧ s.status.ovr = true :=
  ⟨⟨rfl, rfl⟩, { ready with status := ⟨false, false, false, true, true, 1#2, 0#4⟩ }, _, rfl, rfl⟩

theorem witness_FirstFailingCheckIsReported :
    registerWrite (hostDoes 0 (.write32 3#32) ready) 0x000 3#32 [] ∧ ready.status.busy = false
    ∧ errorOf 8#32 ready = some 1
    ∧ errorOf 1#32 { ready with keybits := 129#32 } = some 2
    ∧ errorOf 3#32 { State.reset with src := 0xFFFFFFFF#32 } = some 3
    ∧ errorOf 5#32 { ready with len := 7#32 } = some 4
    ∧ errorOf 3#32 { ready with len := 0x10001#32 } = some 5
    ∧ errorOf 3#32 { ready with len := 17#32, ctrLo := 0xFFFFFFFF#32, ctrHi := 0xFFFFFFFF#32 } = some 6
    ∧ errorOf 3#32 { ready with len := 16#32, ctrLo := 0xFFFFFFFF#32, ctrHi := 0xFFFFFFFF#32 } = none
    ∧ errorOf 5#32 { ready with len := 8#32 } = none :=
  ⟨rfl, rfl, by decide, by decide, by decide, by decide, by decide, by decide, by decide, by decide⟩

theorem witness_ErrorsArePrecise :
    (∃ s t w, registerWrite s 0x000 w [] ∧ s.status.busy = false ∧ step s = .next t ∧ t.status.err = true
      ∧ t.status.errcode ≠ 2#4)
    ∧ ∃ s t w, registerWrite s 0x000 w [] ∧ s.status.busy = false ∧ step s = .next t ∧ t.status.err = true
      ∧ t.status.errcode = 2#4 :=
  ⟨⟨hostDoes 0 (.write32 8#32) ready, _, 8#32, rfl, rfl, rfl, rfl, by decide⟩,
    ⟨hostDoes 0 (.write32 1#32) State.reset, _, 1#32, rfl, rfl, rfl, rfl, rfl⟩⟩

theorem witness_IllegalKeySizeRaisesKeysize :
    (Instr.kdf = .kdf ∨ Instr.kdf = .setkey) ∧ (Instr.setkey = .kdf ∨ Instr.setkey = .setkey) ∧ ready.status.busy = false
    ∧ ¬ keyBitsLegal { ready with keybits := 129#32 } ∧ ¬ keyBitsLegal State.reset :=
  ⟨.inl rfl, .inr rfl, rfl, by unfold keyBitsLegal; decide, by unfold keyBitsLegal; decide⟩

theorem witness_NoValidKeyRaisesNokey :
    (Instr.ksgen = .ctr ∨ Instr.ksgen = .ctre ∨ Instr.ksgen = .ctrd ∨ Instr.ksgen = .ksgen)
    ∧ State.reset.status.busy = false ∧ State.reset.status.keyValid = false := ⟨by decide, rfl, rfl⟩

theorem witness_ShortFrameRaisesMalformed :
    ({ ready with len := 7#32 } : State).status.busy = false ∧ ({ ready with len := 7#32 } : State).status.keyValid = true
    ∧ ({ ready with len := 7#32 } : State).len.toNat < 8 := ⟨rfl, rfl, by decide⟩

theorem witness_RangePastBufRaisesRange :
    (∃ s : State, s.status.busy = false ∧ s.status.keyValid = true ∧ ∃ r ∈ bufRanges .ctr s, ¬ fits s r.1 r.2)
    ∧ (∃ s : State, s.status.busy = false ∧ s.status.keyValid = true ∧ ∃ r ∈ bufRanges .ctre s, ¬ fits s r.1 r.2)
    ∧ ∃ s : State, s.status.busy = false ∧ s.status.keyValid = true ∧ 8 ≤ s.len.toNat
        ∧ ∃ r ∈ bufRanges .ctrd s, ¬ fits s r.1 r.2 :=
  ⟨⟨{ ready with src := 0x10001#32, len := 0#32 }, rfl, rfl, (0x10001, 0), by decide, by unfold fits; decide⟩,
    ⟨{ ready with dst := 0xFFF0#32, len := 9#32 }, rfl, rfl, (0xFFF0, 17), by decide, by unfold fits; decide⟩,
    ⟨{ ready with src := 0xFFF9#32, len := 8#32 }, rfl, rfl, by decide, (0xFFF9, 8), by decide, by unfold fits; decide⟩⟩

/-- The last index is 2^64 - 1 and 17 bytes are asked for. -/
def exhausted : State := { ready with len := 17#32, ctrLo := 0xFFFFFFFF#32, ctrHi := 0xFFFFFFFF#32 }

theorem witness_IndexExhaustionRaisesCtrovf :
    (exhausted.status.busy = false ∧ exhausted.status.keyValid = true ∧ fits exhausted exhausted.src.toNat exhausted.len.toNat
      ∧ fits exhausted exhausted.dst.toNat exhausted.len.toNat ∧ 0 < blockCount exhausted.len.toNat
      ∧ 2 ^ 64 ≤ exhausted.ctr64 + blockCount exhausted.len.toNat - 1)
    ∧ ∃ t, Instr.ctre ≠ .ctr ∧ ready.status.busy = false ∧ exec .ctre ready = .next t :=
  ⟨⟨rfl, rfl, by unfold fits; decide, by unfold fits; decide, by decide, by decide⟩, _, by decide, rfl, rfl⟩

theorem witness_AcceptChangesOnlyOutcomeProgressAndLatches : ∃ t, exec .ctr ready = .next t ∧ t.status.err = false :=
  ⟨_, rfl, rfl⟩

theorem witness_NopCompletes : ready.status.busy = false ∧ (running ctrLatches).status.busy = true := ⟨rfl, rfl⟩

theorem witness_KdfDerivesTheKey_SetkeyValidatesTheKey :
    ready.status.busy = false ∧ keyBitsLegal ready ∧ keyBitsLegal { ready with keybits := 192#32 }
    ∧ keyBitsLegal { ready with keybits := 256#32 } := ⟨rfl, .inl rfl, .inr (.inl rfl), .inr (.inr rfl)⟩

theorem witness_ZeroClearsTheSecrets_KsgenWritesOneKeystreamBlock :
    ready.status.busy = false ∧ ready.status.keyValid = true := ⟨rfl, rfl⟩

/-- A message that ends BUF, its last index the last there is, in place. -/
def atTheEdge : State :=
  { ready with src := 0xFFF0#32, dst := 0xFFF0#32, len := 16#32, ctrLo := 0xFFFFFFFF#32, ctrHi := 0xFFFFFFFF#32 }

/-- A frame that ends BUF, its message in place. -/
def frameAtTheEdge : State := { ready with src := 0xFFFB#32, dst := 0xFFF3#32, len := 5#32 }

/-- A frame of the nonce alone that ends BUF. -/
def emptyFrame : State := { ready with src := 0xFFF8#32, dst := 0x10000#32, len := 8#32 }

theorem witness_CtrTransformsTheMessage :
    atTheEdge.status.busy = false ∧ atTheEdge.status.keyValid = true ∧ fits atTheEdge atTheEdge.src.toNat atTheEdge.len.toNat
    ∧ fits atTheEdge atTheEdge.dst.toNat atTheEdge.len.toNat
    ∧ atTheEdge.ctr64 + blockCount atTheEdge.len.toNat - 1 < 2 ^ 64
    ∧ atTheEdge.dst.toNat ≤ atTheEdge.src.toNat ∧ 0 < atTheEdge.len.toNat
    ∧ blockCount ({ ready with len := 0#32 } : State).len.toNat = 0 :=
  ⟨rfl, rfl, by unfold fits; decide, by unfold fits; decide, by decide, by decide, by decide, by decide⟩

theorem witness_CtreWritesTheFrame :
    frameAtTheEdge.status.busy = false ∧ frameAtTheEdge.status.keyValid = true
    ∧ fits frameAtTheEdge frameAtTheEdge.src.toNat frameAtTheEdge.len.toNat
    ∧ fits frameAtTheEdge frameAtTheEdge.dst.toNat (8 + frameAtTheEdge.len.toNat)
    ∧ frameAtTheEdge.dst.toNat + 8 ≤ frameAtTheEdge.src.toNat :=
  ⟨rfl, rfl, by unfold fits; decide, by unfold fits; decide, by decide⟩

theorem witness_CtrdReadsTheFrame :
    emptyFrame.status.busy = false ∧ emptyFrame.status.keyValid = true ∧ 8 ≤ emptyFrame.len.toNat
    ∧ fits emptyFrame emptyFrame.src.toNat emptyFrame.len.toNat
    ∧ fits emptyFrame emptyFrame.dst.toNat (emptyFrame.len.toNat - 8)
    ∧ emptyFrame.src.toNat + emptyFrame.len.toNat ≤ emptyFrame.dst.toNat :=
  ⟨rfl, rfl, by decide, by unfold fits; decide, by unfold fits; decide, by decide⟩

/-- The three forms of the latch statement are met by the witnesses of the three commands. -/
theorem witness_KeystreamCommandsLatchTheirOperands :
    (atTheEdge.status.busy = false ∧ atTheEdge.ctr64 + blockCount atTheEdge.len.toNat - 1 < 2 ^ 64)
    ∧ fits frameAtTheEdge frameAtTheEdge.dst.toNat (8 + frameAtTheEdge.len.toNat)
    ∧ 8 ≤ emptyFrame.len.toNat := ⟨⟨rfl, by decide⟩, by unfold fits; decide, by decide⟩

theorem witness_BlockStepXorsOneBlock : blockNext (running ctrLatches) := ⟨rfl, rfl, by decide⟩

theorem witness_FrameStepsMoveTheNonce :
    (runningCtre.status.busy = true ∧ runningCtre.seq.phase = .frame ∧ runningCtre.seq.op = .ctre)
    ∧ (runningCtrd.status.busy = true ∧ runningCtrd.seq.phase = .frame ∧ runningCtrd.seq.op = .ctrd) :=
  ⟨⟨rfl, rfl, rfl⟩, ⟨rfl, rfl, rfl⟩⟩

theorem witness_RunningCommandCompletes :
    (∃ t, State.reset.status.busy = false ∧ exec .ctr State.reset = .next t ∧ t.status.err = true)
    ∧ (running ctrLatches).status.busy = true ∧ (running ctreLatches).status.busy = true
    ∧ (running (finishLatches .nop)).status.busy = true := ⟨⟨_, rfl, rfl, rfl⟩, rfl, rfl, rfl⟩

theorem witness_MachineRunIsEngineTurns : ready.inputs = [] := rfl

/-- The cipher is free, but it cannot write both 0 and 1 over the byte. -/
theorem witness_EngineStepWritesOnlyItsOutput :
    (∃ s, blockNext s ∧ Inv s ∧ (engineTurn s).readByte 16 ≠ s.readByte 16)
    ∧ (engineTurn runningCtre).readByte 16 ≠ runningCtre.readByte 16 := by
  refine ⟨?_, by decide⟩
  by_cases h : (engineTurn (runningCtr 0#8)).readByte 16 = 0#8
  · refine ⟨runningCtr 1#8, ⟨rfl, rfl, by decide⟩, runningCtr_inv _, fun e => ?_⟩
    rw [runningCtr_output] at h e
    exact absurd (h.symm.trans e) (by decide)
  · exact ⟨runningCtr 0#8, ⟨rfl, rfl, by decide⟩, runningCtr_inv _, h⟩

theorem witness_EngineAccessesStayInsideBuf :
    (Inv (runningCtr 0#8) ∧ blockNext (runningCtr 0#8))
    ∧ (Inv runningCtre ∧ runningCtre.status.busy = true ∧ runningCtre.seq.phase = .frame ∧ runningCtre.seq.op = .ctre)
    ∧ (Inv runningCtrd ∧ runningCtrd.status.busy = true ∧ runningCtrd.seq.phase = .frame ∧ runningCtrd.seq.op = .ctrd) :=
  ⟨⟨runningCtr_inv _, rfl, rfl, by decide⟩, ⟨runningCtre_inv, rfl, rfl, rfl⟩, ⟨runningCtrd_inv, rfl, rfl, rfl⟩⟩

theorem witness_CounterBlockLayout_CounterBlocksAreDistinct :
    nonceA.length = 8 ∧ 2 ^ 64 - 1 < 2 ^ 64 ∧ (0 < 16 ∧ 7 < 16 ∧ 8 < 16 ∧ 11 < 16 ∧ 12 < 16 ∧ 15 < 16)
    ∧ counterBlock .be nonceA (2 ^ 64 - 1) = counterBlock .be nonceA (2 ^ 64 - 1) :=
  ⟨rfl, by decide, by decide, rfl⟩

theorem witness_CounterCarriesIntoTheHighHalf : 2 ^ 32 - 1 < 2 ^ 64 - 1 ∧ 2 ^ 64 - 2 < 2 ^ 64 - 1 := by decide

theorem witness_BlockLengthsCoverTheMessage : 0 < 1 ∧ 0 < 16 ∧ 0 < 17 ∧ 0 + 1 < blockCount 17 := by decide

/-- Another password beyond the bytes read. -/
def otherPassword : State := { ready with pwd := Vector.replicate 8 7#32 }

/-- FIRST16, a 24-byte key. -/
def firstSixteen : State := { ready with params := ⟨0, .be, .first16, 3⟩, keybits := 192#32 }

theorem witness_KdfLaws :
    (ready.status.busy = false ∧ otherPassword.status.busy = false ∧ keyBitsLegal ready ∧ otherPassword.keybits = ready.keybits
      ∧ otherPassword.params.kdfSchedSrc = ready.params.kdfSchedSrc
      ∧ min otherPassword.pwdlen.toNat (ready.keybits.toNat / 8) = min ready.pwdlen.toNat (ready.keybits.toNat / 8)
      ∧ ∀ k, k < min ready.pwdlen.toNat (ready.keybits.toNat / 8) → otherPassword.pwdByte k = ready.pwdByte k)
    ∧ 7 + 16 < firstSixteen.keybits.toNat / 8
    ∧ (firstSixteen.status.busy = false ∧ keyBitsLegal firstSixteen ∧ firstSixteen.params.kdfSchedSrc = .first16
      ∧ keyBitsLegal { firstSixteen with keybits := 256#32 }) :=
  ⟨⟨rfl, rfl, .inl rfl, rfl, rfl, by decide, fun k hk => absurd hk (Nat.not_lt_zero k)⟩, by decide,
    ⟨rfl, .inr (.inl rfl), rfl, .inr (.inr rfl)⟩⟩

theorem witness_CtrIsAnInvolution :
    fits atTheEdge (0xFFF0#32).toNat atTheEdge.len.toNat
    ∧ (0xFFF0#32).toNat ≤ atTheEdge.dst.toNat ∧ 15 < atTheEdge.len.toNat
    ∧ atTheEdge.status.busy = false ∧ atTheEdge.status.keyValid = true
    ∧ fits atTheEdge atTheEdge.src.toNat atTheEdge.len.toNat ∧ fits atTheEdge atTheEdge.dst.toNat atTheEdge.len.toNat
    ∧ atTheEdge.ctr64 + blockCount atTheEdge.len.toNat - 1 < 2 ^ 64 ∧ atTheEdge.dst.toNat ≤ atTheEdge.src.toNat :=
  ⟨by unfold fits; decide, by decide, by decide, rfl, rfl, by unfold fits; decide, by unfold fits; decide, by decide, by decide⟩

/-- Forty bytes, in two blocks and a half. -/
def forty : State := { ready with len := 40#32, dst := 40#32, ctrLo := 0xFFFFFFFF#32 }

theorem witness_CtrSegmentsLikeOneMessage :
    forty.status.busy = false ∧ forty.status.keyValid = true ∧ fits forty forty.src.toNat forty.len.toNat
    ∧ fits forty forty.dst.toNat forty.len.toNat ∧ forty.ctr64 + blockCount forty.len.toNat - 1 < 2 ^ 64
    ∧ forty.src.toNat + forty.len.toNat ≤ forty.dst.toNat ∧ 16 * 2 < forty.len.toNat ∧ 16 * 0 < forty.len.toNat :=
  ⟨rfl, rfl, by unfold fits; decide, by unfold fits; decide, by decide, by decide, by decide, by decide⟩

theorem witness_FramedRoundTrip :
    ready.status.busy = false ∧ ready.status.keyValid = true ∧ fits ready ready.src.toNat ready.len.toNat
    ∧ fits ready ready.dst.toNat (8 + ready.len.toNat) ∧ fits ready (100#32).toNat ready.len.toNat
    ∧ ready.src.toNat + ready.len.toNat ≤ ready.dst.toNat
    ∧ ready.dst.toNat + 8 + ready.len.toNat ≤ (100#32).toNat ∧ 4 < ready.len.toNat :=
  ⟨rfl, rfl, by unfold fits; decide, by unfold fits; decide, by unfold fits; decide, by decide, by decide, by decide⟩

theorem witness_RegisterReadsReturnTheRegisterMap :
    (0 < 64 ∧ (hostDoes 0x000 .read32 ready).inputs = .access ⟨ready.params.base + 4 * 0, .read32⟩ :: [])
    ∧ (63 < 64 ∧ (hostDoes 0x0FC .read32 ready).inputs = .access ⟨ready.params.base + 4 * 63, .read32⟩ :: []) :=
  ⟨⟨by decide, rfl⟩, ⟨by decide, rfl⟩⟩

theorem witness_IdleOperandWritesTakeEffect :
    (∃ t, registerWrite (hostDoes 0x00C (.write32 5#32) ready) 0x00C 5#32 [] ∧ ready.status.busy = false
      ∧ (0x00C, t) ∈ operandWrites 5#32 (consumed (hostDoes 0x00C (.write32 5#32) ready) []))
    ∧ ∃ t, registerWrite (hostDoes 0x07C (.write32 5#32) ready) 0x07C 5#32 []
      ∧ (0x07C, t) ∈ operandWrites 5#32 (consumed (hostDoes 0x07C (.write32 5#32) ready) []) :=
  ⟨⟨_, rfl, rfl, List.mem_append_left _ (List.mem_append_left _ (List.mem_cons_self ..))⟩,
    ⟨_, rfl, List.mem_append_right _ (List.mem_map.mpr ⟨7, List.mem_finRange 7, rfl⟩)⟩⟩

theorem witness_RegisterAccessWhileBusy :
    (∃ t, registerWrite (hostDoes 0x060 (.write32 5#32) (running ctrLatches)) 0x060 5#32 []
      ∧ (running ctrLatches).status.busy = true
      ∧ (0x060, t) ∈ operandWrites 5#32 (consumed (hostDoes 0x060 (.write32 5#32) (running ctrLatches)) []))
    ∧ registerWrite (hostDoes 0x004 (.write32 0xE#32) (running ctrLatches)) 0x004 0xE#32 []
    ∧ registerWrite (hostDoes 0x008 (.write32 1#32) (running ctrLatches)) 0x008 1#32 []
    ∧ (ignoredOffset 0x030 ∧ ignoredOffset 0x03C ∧ ignoredOffset 0x080 ∧ ignoredOffset 0x0FC ∧ 0x0FC % 4 = 0)
    ∧ registerWrite (hostDoes 0x0FC (.write32 1#32) ready) 0x0FC 1#32 [] :=
  ⟨⟨_, rfl, rfl, List.mem_append_right _ (List.mem_map.mpr ⟨0, List.mem_finRange 0, rfl⟩)⟩, rfl, rfl,
    by unfold ignoredOffset; decide, rfl⟩

theorem witness_StatusIsWriteOneToClear_ErrorsAreAcknowledged :
    registerWrite (hostDoes 0x004 (.write32 0xE#32) ready) 0x004 0xE#32 [] ∧ ready.status.busy = false := ⟨rfl, rfl⟩

theorem witness_CtrlHoldsOnlyIe : registerWrite (hostDoes 0x008 (.write32 0xFFFFFFFF#32) ready) 0x008 0xFFFFFFFF#32 [] := rfl

theorem witness_HostBufAccessIsLittleEndian :
    (ready.status.busy = false ∧ writeValue (.write8 7#8) = some (1, 7) ∧ 65535 % 1 = 0 ∧ 65535 + 1 ≤ ready.params.bufBytes
      ∧ (hostDoes 0x8FFFF (.write8 7#8) ready).inputs = .access ⟨ready.params.base + (0x80000 + 65535), .write8 7#8⟩ :: [])
    ∧ (writeValue (.write32 7#32) = some (4, 7) ∧ 65532 % 4 = 0 ∧ 65532 + 4 ≤ ready.params.bufBytes)
    ∧ (readWidth .read16 = some 2 ∧ 65534 % 2 = 0 ∧ 65534 + 2 ≤ ready.params.bufBytes
      ∧ (hostDoes 0x8FFFE .read16 ready).inputs = .access ⟨ready.params.base + (0x80000 + 65534), .read16⟩ :: []) :=
  ⟨⟨rfl, rfl, by decide, by decide, rfl⟩, ⟨rfl, by decide, by decide⟩, ⟨rfl, by decide, by decide, rfl⟩⟩

theorem witness_HostBufAccessWhileBusy :
    (running ctrLatches).status.busy = true ∧ 65532 % 4 = 0 ∧ 65532 + 4 ≤ (running ctrLatches).params.bufBytes
    ∧ writeValue (.write32 7#32) = some (4, 7) ∧ readWidth .read32 = some 4
    ∧ (hostDoes 0x8FFFC .read32 (running ctrLatches)).inputs
        = .access ⟨(running ctrLatches).params.base + (0x80000 + 65532), .read32⟩ :: [] :=
  ⟨rfl, by decide, by decide, rfl, rfl, rfl⟩

/-- Each way to be a bus error, at its boundary, and the accesses just inside. -/
theorem witness_BusErrorsAreExactlyTheUndefinedAccesses :
    (∃ f, step (hostDoes 0x100 .read32 ready) = .fault f) ∧ (∃ f, step (hostDoes 0x7FFFC .read32 ready) = .fault f)
    ∧ (∃ f, step (hostDoes 0x90000 .read8 ready) = .fault f) ∧ (∃ f, step (hostDoes 0xFFFFF .read8 ready) = .fault f)
    ∧ (∃ f, step (hostDoes 0x0FE .read16 ready) = .fault f) ∧ (∃ f, step (hostDoes 0x8FFFE .read32 ready) = .fault f)
    ∧ (∃ t, step (hostDoes 0x0FC .read32 ready) = .next t) ∧ (∃ t, step (hostDoes 0x8FFFF .read8 ready) = .next t)
    ∧ (hostDoes 0xFFFFF .read8 ready).inputs = .access ⟨ready.params.base + 0xFFFFF, .read8⟩ :: [] :=
  ⟨⟨_, rfl⟩, ⟨_, rfl⟩, ⟨_, rfl⟩, ⟨_, rfl⟩, ⟨_, rfl⟩, ⟨_, rfl⟩, ⟨_, rfl⟩, ⟨_, rfl⟩, rfl⟩

theorem witness_AccessOutsideTheWindowChangesNothing :
    (hostDoes 0x100000 .read32 ready).inputs = .access ⟨0x100000, .read32⟩ :: []
    ∧ 0x100000 ≤ 0x100000 - ready.params.base
    ∧ (hostDoes 0x2FFFFF (.write8 1#8) firstSixteen).inputs = .access ⟨0x2FFFFF, .write8 1#8⟩ :: []
    ∧ 0x2FFFFF < firstSixteen.params.base := ⟨rfl, by decide, rfl, by decide⟩

theorem witness_AssemblyReachesTheNamedRegister : Reg.id ≠ .reserved ∧ Reg.cmd ≠ .reserved := by decide

theorem witness_InterruptFollowsDone :
    (Inv (runningCtr 0#8) ∧ (runningCtr 0#8).status.busy = true)
    ∧ finishing (running (finishLatches .kdf)) ∧ finishing { running ctrLatches with progIdx := 1#32 }
    ∧ (∃ t, step (hostDoes 0x004 (.write32 2#32) ready) = .next t ∧ (2#32).getLsbD 1 = true
        ∧ registerWrite (hostDoes 0x004 (.write32 2#32) ready) 0x004 2#32 [])
    ∧ ∃ t, step (hostDoes 0x008 (.write32 2#32) ready) = .next t ∧ (2#32).getLsbD 0 = false
        ∧ registerWrite (hostDoes 0x008 (.write32 2#32) ready) 0x008 2#32 [] :=
  ⟨⟨runningCtr_inv _, rfl⟩, ⟨rfl, .inl rfl⟩, ⟨rfl, .inr ⟨rfl, by decide⟩⟩, ⟨_, rfl, by decide, rfl⟩, ⟨_, rfl, by decide, rfl⟩⟩

theorem witness_ResetClearsRegistersAndKeepsBuf : ({ runningCtr 1#8 with inputs := [.reset] } : State).inputs = .reset :: [] := rfl

theorem witness_PowerUpDrawsBufAnew : ({ runningCtr 1#8 with inputs := [.powerUp] } : State).inputs = .powerUp :: [] := rfl

theorem witness_EveryStepKeepsTheInvariant : ∃ t, Inv (runningCtr 0#8) ∧ step (runningCtr 0#8) = .next t :=
  ⟨_, runningCtr_inv _, rfl⟩

theorem witness_IdleAndRunningChangeOnlyByAcceptAndCompletion :
    (∃ t, step (hostDoes 0x000 (.write32 0#32) ready) = .next t ∧ ready.status.busy = false ∧ t.status.busy = true)
    ∧ ∃ t, step (running (finishLatches .nop)) = .next t ∧ (running (finishLatches .nop)).status.busy = true
        ∧ t.status.busy = false := ⟨⟨_, rfl, rfl, rfl⟩, ⟨_, rfl, rfl, rfl⟩⟩

/-- ZERO about to finish, with a stale keystream and key. -/
def zeroing : State := { running (finishLatches .zero) with ks := Vector.replicate 4 1#32, key := Vector.replicate 8 1#32 }

theorem witness_KeystreamRegistersChangeOnlyByKsgenZeroAndReset : ∃ t, step zeroing = .next t ∧ t.ks ≠ zeroing.ks :=
  ⟨_, rfl, by decide⟩

theorem witness_KeyChangesOnlyByHostKdfZeroAndReset :
    (∃ t, step zeroing = .next t ∧ t.key ≠ zeroing.key)
    ∧ ∃ t, step (hostDoes 0x07C (.write32 1#32) ready) = .next t ∧ t.key ≠ ready.key :=
  ⟨⟨_, rfl, by decide⟩, ⟨_, rfl, by decide⟩⟩

theorem witness_NonceIsConstantWithinACommand :
    ∃ t, step { runningCtrd with buf := [(0, 1#8), (1, 0#8), (2, 0#8), (3, 0#8)] } = .next t
      ∧ runningCtrd.status.busy = true ∧ t.nonce0 ≠ runningCtrd.nonce0 := ⟨_, rfl, rfl, by decide⟩

theorem witness_HostCannotDisturbARunningCommand :
    ∃ t, (hostDoes 0x80010 (.write8 1#8) (runningCtr 0#8)).inputs = .access ⟨0x80010, .write8 1#8⟩ :: []
      ∧ (runningCtr 0#8).status.busy = true ∧ step (hostDoes 0x80010 (.write8 1#8) (runningCtr 0#8)) = .next t :=
  ⟨_, rfl, rfl, rfl⟩

theorem witness_EndOfARunKeepsItsObservation :
    ready.ended ∧ ({ ready with inputs := [.engine, .reset] } : State).ended
    ∧ ¬ resetNext { ready with inputs := [.engine, .reset] } := by
  refine ⟨⟨by decide, rfl⟩, ⟨by decide, rfl⟩, ?_⟩
  rintro (⟨_, h⟩ | ⟨_, h⟩) <;> cases h

/-- A running command and a coming access are no ends. -/
theorem test_not_ended : ¬ (runningCtr 0#8).ended ∧ ¬ (hostDoes 0x000 (.write32 0#32) ready).ended :=
  ⟨fun h => absurd h.2 (by decide), fun h => absurd (h.1 _ (List.mem_singleton.mpr rfl)) (by decide)⟩

/-- Log entry 17's choice: a misaligned BUF write while BUSY = 1 is a bus error. -/
theorem test_busy_misaligned : step (hostDoes 0x80001 (.write32 1#32) (running ctrLatches))
    = .fault (.busError 0x80001 32 true) := rfl

end Sys2Proof.Tests
end

section
/-! PROOF. The control register (10_state.md R25): what a CTRL write does, whatever BUSY is, and what CTRL then reads. -/

namespace Sys2Proof.Proofs
open Sys2Proof.Machine Sys2Proof.Claims

/-- The register table gives CTRL as IE in bit 0. -/
theorem registerValue_ctrl (s : State) : registerValue s 0x008 = BitVec.ofNat 32 s.ie.toNat := rfl

/-- Bit 0 of a word, read back as a word, is the word with bits 31:1 cleared. -/
theorem ofNat_toNat_getLsbD_zero (w : Word) : BitVec.ofNat 32 (w.getLsbD 0).toNat = w &&& 1#32 := by
  rw [BitVec.and_one_eq_setWidth_ofBool_getLsbD]
  cases w.getLsbD 0 <;> rfl

/-- CTRL is the word at offset 8, and no condition on BUSY stands in its write. -/
theorem step_writeCtrl {s : State} {w : Word} {rest : List Input} (h : registerWrite s 0x008 w rest) :
    step s = .next { consumed s rest with ie := w.getLsbD 0 } := by
  rw [step_writeReg h (by decide) (by decide)]
  rfl

/-- Settles O41: a CTRL write stores bit 0 in IE, and the register table gives IE alone at CTRL's offset. -/
theorem ctrlHoldsOnlyIe : Obligations.CtrlHoldsOnlyIe := by
  unfold Obligations.CtrlHoldsOnlyIe
  refine ⟨fun s w rest h => ⟨step_writeCtrl h, ?_⟩, ?_⟩
  · rw [registerValue_ctrl]
    exact ofNat_toNat_getLsbD_zero w
  · rw [registerValue_ctrl]
    rfl

end Sys2Proof.Proofs
end

section
/-! PROOF. The command encoding (30_encoding.md R90 to R93): the decoder and the encoder as each other's inverse on the fields of
a word, which words the decoder refuses, and what a write of each kind of word to an idle CTRKS's CMD does. -/

namespace Sys2Proof.Proofs
open Sys2Proof.Machine Sys2Proof.Claims

/-! ## The opcode map -/

/-- `decodeOpcode` and `opcode` are the same table. -/
theorem decodeOpcode_eq_some_iff (opc : BitVec 4) (i : Instr) : decodeOpcode opc = some i ↔ opc = opcode i := by
  cases i <;> revert opc <;> decide

/-- The opcodes without a command are those from 8 on (R93). -/
theorem decodeOpcode_eq_none_iff (opc : BitVec 4) : decodeOpcode opc = none ↔ 8 ≤ opc.toNat := by
  revert opc; decide

/-! ## Words and their fields -/

/-- RSV and OPC together are the whole word. -/
theorem cmdFields_eq_iff (w : Word) (rsv : BitVec 28) (opc : BitVec 4) : cmdFields w = ⟨rsv, opc⟩ ↔ w = rsv ++ opc := by
  have hw : w.extractLsb' 4 28 ++ w.extractLsb' 0 4 = w := by
    rw [BitVec.extractLsb'_append_extractLsb'_eq_extractLsb' (by rfl)]
    exact BitVec.extractLsb'_eq_self
  constructor
  · intro h
    obtain ⟨rfl, rfl⟩ := CmdFields.mk.inj h
    exact hw.symm
  · rintro rfl
    rw [cmdFields, BitVec.extractLsb'_append_eq_left, BitVec.extractLsb'_append_eq_right]

/-- The decoder reads a command exactly from a word whose RSV is 0 and whose OPC is the command's (R92). -/
theorem decode_eq_ok_iff_cmdFields (w : Word) (i : Instr) : decode w = .ok i ↔ cmdFields w = ⟨0#28, opcode i⟩ := by
  rcases hf : cmdFields w with ⟨rsv, opc⟩
  rw [CmdFields.mk.injEq, ← decodeOpcode_eq_some_iff, decode, hf]
  by_cases hr : rsv = 0#28
  · cases decodeOpcode opc <;> simp [hr]
  · simp [hr]

/-! ## Decode and encode -/

theorem decode_eq_ok_iff_encode (w : Word) (i : Instr) : decode w = .ok i ↔ w = encode i := by
  rw [decode_eq_ok_iff_cmdFields, cmdFields_eq_iff, encode]

/-- The encoder's word has the value the opcode map lists (R92). -/
theorem encode_toNat (i : Instr) : (encode i).toNat = wordOf i := by cases i <;> rfl

/-- Settles O2: the decoder inverts the encoder, and the encoder's word is the one with the opcode's value. -/
theorem wordIsCommandExactlyWhenEqualToItsOpcode : Obligations.WordIsCommandExactlyWhenEqualToItsOpcode := by
  unfold Obligations.WordIsCommandExactlyWhenEqualToItsOpcode
  intro w i
  refine ⟨?_, decode_eq_ok_iff_encode w i⟩
  rw [decode_eq_ok_iff_encode, ← encode_toNat, BitVec.toNat_inj]

/-! ## Illegal words -/

/-- A word has RSV other than 0 or OPC of 8 or more exactly when the decoder refuses it (R93). -/
theorem decode_error_iff (w : Word) :
    (∃ e, decode w = .error e) ↔ w.extractLsb' 4 28 ≠ 0#28 ∨ 8 ≤ (w.extractLsb' 0 4).toNat := by
  rw [decode, cmdFields, ← decodeOpcode_eq_none_iff]
  by_cases hr : w.extractLsb' 4 28 = 0#28
  · cases decodeOpcode (w.extractLsb' 0 4) <;> simp [hr]
  · simp [hr]

/-- ILLEGAL, raised by an accept, changes the outcome bits and the progress registers only. -/
theorem beginAccept_raiseError_illegal (s : State) : s.beginAccept.raiseError .illegal = failed s 1#4 := rfl

theorem writeCmd_illegal {w : Word} {s : State} {e : DecodeError} (hb : s.status.busy = false) (hw : decode w = .error e) :
    writeCmd w s = .next (failed s 1#4) := by
  simp [writeCmd, hb, hw, beginAccept_raiseError_illegal]

theorem writeCmd_command {w : Word} {s : State} {i : Instr} (hb : s.status.busy = false) (hw : decode w = .ok i) :
    writeCmd w s = exec i s := by
  simp [writeCmd, hb, hw]

/-- Settles O3: the step is the write of CMD, and the decoder either refuses the word, which is then illegal, or reads a
command from it. -/
theorem illegalWordRaisesIllegal : Obligations.IllegalWordRaisesIllegal := by
  unfold Obligations.IllegalWordRaisesIllegal
  intro s w rest h hb
  have hstep : step s = writeCmd w (consumed s rest) := step_writeCmd h
  rw [← decode_error_iff, hstep]
  constructor
  · rintro ⟨e, he⟩
    exact writeCmd_illegal hb he
  · intro hlegal
    cases hd : decode w with
    | error e => exact absurd ⟨e, hd⟩ hlegal
    | ok i => exact ⟨i, rfl, writeCmd_command hb hd⟩

end Sys2Proof.Proofs
end

section
/-! PROOF. The sequencer's STATUS bits (40_sequencer.md R105, R109, R112): which turns move BUSY and OVR, and how many engine
steps a running command takes. -/

namespace Sys2Proof.Proofs
open Sys2Proof.Machine Sys2Proof.Claims

/-! ## STATUS after an engine turn -/

@[simp] theorem frameStep_status (s : State) : s.frameStep.status = s.status := by
  rcases frameStep_cases s with ⟨_, h⟩ | ⟨_, h⟩ | ⟨_, _, h⟩ <;> simp [h]

@[simp] theorem blockStep_status (bc : BlockCipher) (s : State) : (s.blockStep bc).status = s.status := rfl

/-- Of STATUS a finish action writes KEY_VALID and KLEN alone. -/
theorem finishOp_status (bc : BlockCipher) (i : Instr) (s : State) :
    (finishOp bc i s).status = { s.status with
      keyValid := (finishOp bc i s).status.keyValid
      klen     := (finishOp bc i s).status.klen } := by
  cases i <;> rfl

theorem finishStep_status (bc : BlockCipher) (s : State) :
    (s.finishStep bc).status = { s.status with
      busy     := false
      done     := true
      keyValid := (s.finishStep bc).status.keyValid
      klen     := (s.finishStep bc).status.klen } := by
  rw [State.finishStep, complete_status, finishOp_status]

/-- No engine turn writes ERR, ERRCODE or OVR (R109, R112). -/
theorem engineTurn_status (s : State) :
    (engineTurn s).status = { s.status with
      busy     := (engineTurn s).status.busy
      done     := (engineTurn s).status.done
      keyValid := (engineTurn s).status.keyValid
      klen     := (engineTurn s).status.klen } := by
  rcases engineTurn_cases s with ⟨_, h⟩ | ⟨_, _, h⟩ | ⟨_, _, _, h⟩ | ⟨_, _, h⟩ <;> rw [h]
  · rw [frameStep_status]
  · rw [blockStep_status]
  · rw [finishStep_status]

@[simp] theorem engineTurn_err (s : State) : (engineTurn s).status.err = s.status.err :=
  (congrArg Status.err (engineTurn_status s) :)

@[simp] theorem engineTurn_errcode (s : State) : (engineTurn s).status.errcode = s.status.errcode :=
  (congrArg Status.errcode (engineTurn_status s) :)

@[simp] theorem engineTurn_ovr (s : State) : (engineTurn s).status.ovr = s.status.ovr :=
  (congrArg Status.ovr (engineTurn_status s) :)

/-- The one engine turn that clears BUSY is a completion (R108, R110). -/
theorem engineTurn_completes {s : State} (hb : s.status.busy = true) (ht : (engineTurn s).status.busy = false) :
    finishing s ∧ (engineTurn s).status.done = true := by
  rcases engineTurn_cases s with ⟨hi, _⟩ | ⟨_, _, h⟩ | ⟨_, _, _, h⟩ | ⟨_, hp, h⟩
  · rw [hb] at hi; cases hi
  · rw [h, frameStep_status, hb] at ht; cases ht
  · rw [h, blockStep_status, hb] at ht; cases ht
  · exact ⟨⟨hb, hp⟩, by rw [h, finishStep_done]⟩

/-! ## BUSY and OVR after a host access -/

/-- A write of CMD moves BUSY only by accepting a command (R106). -/
theorem writeCmd_busy {w : Word} {s t : State} (h : writeCmd w s = .next t) :
    t.status.busy = s.status.busy ∨ s.status.busy = false ∧ ∃ i, decode w = .ok i := by
  rcases writeCmd_cases h with ⟨_, rfl⟩ | ⟨_, e, rfl⟩ | ⟨hb, i, hd, _, _⟩
  · exact .inl rfl
  · exact .inl (by simp)
  · exact .inr ⟨hb, i, hd⟩

/-- A write of CMD sets OVR or leaves it (R106, R112). -/
theorem writeCmd_ovr {w : Word} {s t : State} (h : writeCmd w s = .next t) (ho : s.status.ovr = true) :
    t.status.ovr = true := by
  rcases writeCmd_cases h with ⟨_, rfl⟩ | ⟨_, e, rfl⟩ | ⟨_, i, _, _, rfl⟩
  · rfl
  · simp [ho]
  · obtain ⟨q, _, hl⟩ := latchOf_eq i s.beginAccept
    simp [hl, ho]

theorem writeReg_busy (r : Reg) (w : Word) (s : State) : (writeReg r w s).status.busy = s.status.busy := by
  cases r <;> simp [writeReg, ifIdle, apply_ite, Status.writeOneToClear]

theorem writeReg_ovr {r : Reg} (hr : r ≠ .status) (w : Word) (s : State) :
    (writeReg r w s).status.ovr = s.status.ovr := by
  cases r
  case status => exact absurd rfl hr
  all_goals simp [writeReg, ifIdle, apply_ite]

@[simp] theorem writeBuf_status (a : Nat) (bs : List Byte) (s : State) : (writeBuf a bs s).status = s.status := by
  unfold writeBuf ifIdle
  split <;> rfl

/-- STATUS is word 1 of the window and no other (10_state.md R23). -/
theorem regAt_eq_status {k : Nat} (hk : k < 64) (h : regAt k = .status) : k = 1 := by
  revert k; decide

/-- A host access moves BUSY only by the accept of a command written to CMD. -/
theorem hostAccess_busy {acc : BusAccess} {s t : State} (h : hostAccess acc s = .next t) :
    t.status.busy = s.status.busy
    ∨ s.status.busy = false ∧ ∃ w i, acc = ⟨s.params.base + 0x000, .write32 w⟩ ∧ decode w = .ok i := by
  rcases hostAccess_cases h with rfl | ⟨v, rfl⟩ | ⟨_, v, rfl⟩ | ⟨w, ha, hw⟩ | ⟨k, w, _, _, _, rfl⟩ | ⟨a, bs, _, rfl⟩
  · exact .inl rfl
  · exact .inl rfl
  · exact .inl rfl
  · exact (writeCmd_busy hw).imp_right fun ⟨hb, i, hd⟩ => ⟨hb, w, i, ha, hd⟩
  · exact .inl (writeReg_busy _ _ _)
  · exact .inl (by rw [writeBuf_status])

/-- A host access clears OVR only by a write of STATUS with bit 3 set (10_state.md R24). -/
theorem hostAccess_ovr {acc : BusAccess} {s t : State} (h : hostAccess acc s = .next t) (ho : s.status.ovr = true) :
    t.status.ovr = true ∨ ∃ w, acc = ⟨s.params.base + 0x004, .write32 w⟩ ∧ w.getLsbD 3 = true := by
  rcases hostAccess_cases h with rfl | ⟨v, rfl⟩ | ⟨_, v, rfl⟩ | ⟨w, _, hw⟩ | ⟨k, w, _, hk, ha, rfl⟩ | ⟨a, bs, _, rfl⟩
  · exact .inl ho
  · exact .inl ho
  · exact .inl ho
  · exact .inl (writeCmd_ovr hw ho)
  · by_cases hr : regAt k = .status
    · obtain rfl := regAt_eq_status hk hr
      cases h3 : w.getLsbD 3 with
      | true => exact .inr ⟨w, ha, h3⟩
      | false =>
        refine .inl ?_
        rw [hr, writeReg, acknowledge_status, Status.writeOneToClear, h3]
        simp [ho]
    · exact .inl (by rw [writeReg_ovr hr, ho])
  · exact .inl (by rw [writeBuf_status, ho])

/-! ## BUSY over a step -/

/-- Settles O54: by whose turn the step is. Of the host's accesses only an accept moves BUSY, of the engine's turns only a
completion. -/
theorem idleAndRunningChangeOnlyByAcceptAndCompletion :
    Obligations.IdleAndRunningChangeOnlyByAcceptAndCompletion := by
  unfold Obligations.IdleAndRunningChangeOnlyByAcceptAndCompletion
  intro s t h
  rcases step_cases h with ⟨rest, hi, rfl⟩ | ⟨rest, hi, rfl⟩ | ⟨rest, hi, rfl⟩ | ⟨acc, rest, hi, ha⟩
  · refine ⟨fun hs ht => ?_, fun hs ht => .inr ⟨rest, hi, engineTurn_completes (s := { s with inputs := rest }) hs ht⟩⟩
    rw [engineTurn_idle (s := { s with inputs := rest }) hs, hs] at ht
    cases ht
  · exact ⟨fun _ ht => (nomatch ht), fun _ _ => .inl (.inl ⟨rest, hi⟩)⟩
  · exact ⟨fun _ ht => (nomatch ht), fun _ _ => .inl (.inr ⟨rest, hi⟩)⟩
  · rcases hostAccess_busy ha with hkeep | ⟨hidle, w, i, rfl, hd⟩
    · exact ⟨fun hs ht => absurd (hkeep.symm.trans ht) (by simp [hs]),
        fun hs ht => absurd (hkeep.symm.trans ht) (by simp [hs])⟩
    · exact ⟨fun _ _ => ⟨w, i, rest, hi, hd⟩, fun hs _ => absurd (hs.symm.trans hidle) (by decide)⟩

/-! ## A CMD write while BUSY = 1 -/

theorem writeCmd_drop {w : Word} {s : State} (hb : s.status.busy = true) : writeCmd w s = .next s.dropCommand := by
  simp [writeCmd, hb]

/-- Settles O5: the write of CMD is dropped; and OVR, by whose turn the step is, is kept by every turn but a reset, a power-up
and a STATUS write with bit 3 set. -/
theorem commandWhileBusyOnlySetsStickyOvr : Obligations.CommandWhileBusyOnlySetsStickyOvr := by
  unfold Obligations.CommandWhileBusyOnlySetsStickyOvr
  constructor
  · intro s w rest hw hb
    exact (step_writeCmd hw).trans (writeCmd_drop (s := consumed s rest) hb)
  · intro s t h ho
    rcases step_cases h with ⟨rest, _, rfl⟩ | ⟨rest, hi, _⟩ | ⟨rest, hi, _⟩ | ⟨acc, rest, hi, ha⟩
    · exact .inl (by rw [engineTurn_ovr, ho])
    · exact .inr (.inl (.inl ⟨rest, hi⟩))
    · exact .inr (.inl (.inr ⟨rest, hi⟩))
    · rcases hostAccess_ovr ha ho with ht | ⟨w, rfl, h3⟩
      · exact .inl ht
      · exact .inr (.inr ⟨w, rest, hi, h3⟩)

/-! ## A running command's steps -/

/-- The engine steps a running command's phase and progress leave (R108). -/
def stepsLeft (s : State) : Nat :=
  match s.seq.phase with
  | .frame  => s.progCnt.toNat - s.progIdx.toNat + 2
  | .blocks => s.progCnt.toNat - s.progIdx.toNat + 1
  | .finish => 1

theorem stepsLeft_frame {s : State} (h : s.seq.phase = .frame) :
    stepsLeft s = s.progCnt.toNat - s.progIdx.toNat + 2 := by simp [stepsLeft, h]

theorem stepsLeft_blocks {s : State} (h : s.seq.phase = .blocks) :
    stepsLeft s = s.progCnt.toNat - s.progIdx.toNat + 1 := by simp [stepsLeft, h]

theorem stepsLeft_finish {s : State} (h : s.seq.phase = .finish) : stepsLeft s = 1 := by simp [stepsLeft, h]

theorem stepsLeft_frameStep {s : State} (h : s.seq.phase = .frame) : stepsLeft s.frameStep + 1 = stepsLeft s := by
  rw [stepsLeft_frame h, stepsLeft_blocks rfl]
  rcases frameStep_cases s with ⟨_, e⟩ | ⟨_, e⟩ | ⟨_, _, e⟩ <;> simp [e]

theorem stepsLeft_blockStep (bc : BlockCipher) {s : State} (h : s.seq.phase = .blocks)
    (hi : s.progIdx.toNat < s.progCnt.toNat) : stepsLeft (s.blockStep bc) + 1 = stepsLeft s := by
  have hn : (s.progIdx + 1#32).toNat = s.progIdx.toNat + 1 := by
    have := s.progCnt.isLt
    simp
    omega
  rw [stepsLeft_blocks h, stepsLeft_blocks (s := s.blockStep bc) h, blockStep_eq]
  simp only [hn]
  omega

/-- A running command's engine turn is its last, and completes it, or leaves one step fewer. -/
theorem engineTurn_stepsLeft {s : State} (hb : s.status.busy = true) :
    (stepsLeft s = 1 ∧ (engineTurn s).status.busy = false ∧ (engineTurn s).status.done = true)
    ∨ ((engineTurn s).status.busy = true ∧ stepsLeft (engineTurn s) + 1 = stepsLeft s) := by
  rcases engineTurn_cases s with ⟨hi, _⟩ | ⟨_, hp, h⟩ | ⟨_, hp, hi, h⟩ | ⟨_, hp, h⟩
  · rw [hb] at hi; cases hi
  · exact .inr (by rw [h]; exact ⟨by rw [frameStep_status, hb], stepsLeft_frameStep hp⟩)
  · exact .inr (by rw [h]; exact ⟨hb, stepsLeft_blockStep Config.bc hp hi⟩)
  · refine .inl ⟨?_, by rw [h]; exact ⟨rfl, rfl⟩⟩
    rcases hp with hp | ⟨hp, hi⟩
    · exact stepsLeft_finish hp
    · rw [stepsLeft_blocks hp]; omega

theorem stepsLeft_pos (s : State) : 0 < stepsLeft s := by unfold stepsLeft; split <;> omega

theorem turns_succ (k : Nat) (s : State) : turns (k + 1) s = turns k (engineTurn s) := rfl

/-- A running command is busy for exactly `stepsLeft` engine turns, and then done (R109, R174). -/
theorem turns_complete (n : Nat) {s : State} (hb : s.status.busy = true) (hn : stepsLeft s = n) :
    (∀ j, j < n → (turns j s).status.busy = true)
    ∧ (turns n s).status.busy = false ∧ (turns n s).status.done = true := by
  induction n generalizing s with
  | zero => have := stepsLeft_pos s; omega
  | succ n ih =>
    rcases engineTurn_stepsLeft hb with ⟨h1, hend⟩ | ⟨hrun, hless⟩
    · obtain rfl : n = 0 := by omega
      refine ⟨fun j hj => ?_, hend⟩
      obtain rfl : j = 0 := by omega
      exact hb
    · obtain ⟨hbusy, hend⟩ := ih hrun (by omega)
      refine ⟨fun j hj => ?_, hend⟩
      cases j with
      | zero => exact hb
      | succ j => exact hbusy j (by omega)

theorem turns_keep_error (j : Nat) (s : State) :
    (turns j s).status.err = s.status.err ∧ (turns j s).status.errcode = s.status.errcode := by
  induction j generalizing s with
  | zero => exact ⟨rfl, rfl⟩
  | succ j ih => simpa [turns_succ] using ih (engineTurn s)

/-- An accept that leaves ERR set raised an error: an accept that latches has cleared it (R106). -/
theorem exec_failed {i : Instr} {s t : State} (hb : s.status.busy = false) (h : exec i s = .next t)
    (he : t.status.err = true) : ∃ e, t = s.beginAccept.raiseError e := by
  rcases exec_cases h with ⟨hb', _⟩ | ⟨_, e, _, ht⟩ | ⟨_, _, rfl⟩
  · rw [hb] at hb'; cases hb'
  · exact ⟨e, ht⟩
  · obtain ⟨q, _, hl⟩ := latchOf_eq i s.beginAccept
    simp [hl] at he

/-- Settles O25: a failed accept is the shared error entry, which starts no run and writes no output; and each engine turn of a
running command takes one off `stepsLeft`, the last one completing it. -/
theorem runningCommandCompletes : Obligations.RunningCommandCompletes := by
  unfold Obligations.RunningCommandCompletes
  constructor
  · intro i s t hb h he
    obtain ⟨e, rfl⟩ := exec_failed hb h he
    exact ⟨by simp [hb], by simp, by simp, readByte_congr (by simp) (by simp)⟩
  · intro s hb
    obtain ⟨hbusy, hidle, hdone⟩ := turns_complete (stepsLeft s) hb rfl
    exact ⟨stepsLeft s, rfl, hbusy, hidle, hdone, fun j => turns_keep_error j s⟩

end Sys2Proof.Proofs
end

section
/-! PROOF. NOP (40_sequencer.md R114), and what every accept whose checks pass leaves (R106, R107). -/

namespace Sys2Proof.Proofs
open Sys2Proof.Machine Sys2Proof.Claims

/-- Whatever the command, its accept's latch moves only BUSY, the outcome bits, the progress registers and the latches. -/
theorem latchOf_beginAccept_agree (i : Instr) (s : State) :
    agree (latchOf i s.beginAccept) (accepted s (countOf i s)) := by
  cases i <;> rfl

/-- An accepted NOP's one engine step is its completion. -/
theorem latchNop_turns_agree (s : State) : agree (turns 1 (latchNop s.beginAccept)) (finished s 0) := by
  have h : turns 1 (latchNop s.beginAccept) = (latchNop s.beginAccept).finishStep Config.bc :=
    engineTurn_finish (s := latchNop s.beginAccept) rfl rfl
  rw [h]
  rfl

/-- A word whose OPC is NOP's but whose RSV is not 0 is no command (30_encoding.md R93). -/
theorem decode_reservedBits {w : Word} (h : w.extractLsb' 4 28 ≠ 0#28) : decode w = .error .reservedBits := by
  simp [decode, cmdFields, h]

/-- Settles O14: NOP has no check, so an idle accept latches; its first phase is FINISH, so the next engine turn completes it. -/
theorem nopCompletes : Obligations.NopCompletes := by
  unfold Obligations.NopCompletes
  refine ⟨rfl, fun w _ hr => decode_reservedBits hr, fun s hb => ?_, fun s hb => exec_drop hb⟩
  exact ⟨latchNop s.beginAccept, exec_latch hb rfl, latchOf_beginAccept_agree .nop s, rfl, rfl, latchNop_turns_agree s⟩

end Sys2Proof.Proofs
end

section
/-! PROOF. Register accesses (10_state.md R23 to R37, 40_sequencer.md R113): the register table as the model's `readReg`, and
which writes are dropped. -/

namespace Sys2Proof.Proofs
open Sys2Proof.Machine Sys2Proof.Claims

/-! ## Reads -/

/-- Two fields side by side, as a number. -/
theorem toNat_append_add {m n : Nat} (x : BitVec m) (y : BitVec n) : (x ++ y).toNat = 2 ^ n * x.toNat + y.toNat := by
  rw [BitVec.toNat_append, Nat.shiftLeft_eq, Nat.mul_comm, Nat.two_pow_add_eq_or_of_lt y.isLt]

/-- STATUS as a number, each field at its bit position (10_state.md R24). -/
theorem toWord_eq_ofNat (st : Status) :
    st.toWord = BitVec.ofNat 32 (st.busy.toNat + 2 * st.done.toNat + 4 * st.err.toNat + 8 * st.ovr.toNat
      + 16 * st.keyValid.toNat + 32 * st.klen.toNat + 256 * st.errcode.toNat) := by
  have hn : st.toWord.toNat = st.busy.toNat + 2 * st.done.toNat + 4 * st.err.toNat + 8 * st.ovr.toNat
      + 16 * st.keyValid.toNat + 32 * st.klen.toNat + 256 * st.errcode.toNat := by
    simp only [Status.toWord, toNat_append_add, BitVec.toNat_ofBool, BitVec.toNat_ofNat]
    omega
  rw [← hn, BitVec.ofNat_toNat, BitVec.setWidth_eq]

/-- The offsets `registerTable` lists, in its order. -/
def registerOffsets : List Nat :=
  [0x004, 0x008, 0x00C, 0x010, 0x014, 0x018, 0x01C, 0x020, 0x024, 0x028, 0x02C, 0x030, 0x034, 0x0FC]
  ++ (List.finRange 8).map (fun j => 0x040 + 4 * j.val)
  ++ (List.finRange 8).map (fun j => 0x060 + 4 * j.val)
  ++ (List.finRange 4).map (fun j => 0x080 + 4 * j.val)

/-- The register table is the graph of the model's register read over its offsets. -/
theorem registerTable_eq_map (s : State) :
    registerTable s = registerOffsets.map fun off => (off, readReg (regAt (off / 4)) s) := by
  have hctrl : BitVec.ofNat 32 s.ie.toNat = (BitVec.ofBool s.ie).setWidth 32 := by cases s.ie <;> rfl
  have hpwdlen : BitVec.ofNat 32 s.pwdlen.toNat = s.pwdlen.setWidth 32 := BitVec.ofNat_toNat 32 s.pwdlen
  unfold registerTable
  rw [← toWord_eq_ofNat, hctrl, hpwdlen]
  rfl

/-- The words the table does not list are CMD and the reserved words. -/
theorem regAt_unlisted {k : Nat} (hk : k < 64) (h : 4 * k ∉ registerOffsets) : regAt k = .cmd ∨ regAt k = .reserved := by
  revert k; decide

/-- The register table gives at each word of the window what the host reads there (10_state.md R23). -/
theorem registerValue_eq_readReg (s : State) {k : Nat} (hk : k < 64) :
    registerValue s (4 * k) = readReg (regAt k) s := by
  rw [registerValue, registerTable_eq_map]
  by_cases hm : 4 * k ∈ registerOffsets
  · rw [List.lookup_graph _ hm, Option.getD_some, Nat.mul_div_cancel_left k (by decide)]
  · have hnone : (registerOffsets.map fun off => (off, readReg (regAt (off / 4)) s)).lookup (4 * k) = none := by
      rw [List.lookup_eq_none_iff]
      intro p hp
      obtain ⟨off, hoff, rfl⟩ := List.mem_map.mp hp
      exact bne_iff_ne.mpr fun he => hm (he ▸ hoff)
    rw [hnone]
    rcases regAt_unlisted hk hm with hr | hr <;> rw [hr] <;> rfl

/-- A 32-bit read in the register window, whatever BUSY is (20_memory.md R68). -/
theorem step_readRegister {s : State} {k : Nat} {rest : List Input} (hk : k < 64)
    (h : s.inputs = .access ⟨s.params.base + 4 * k, .read32⟩ :: rest) :
    step s = .next { s with inputs := rest, hostData := some (registerValue s (4 * k)) } := by
  rw [step_readReg h (by omega) (by omega), registerValue_eq_readReg s hk, Nat.mul_div_cancel_left k (by decide)]

/-! ## Writes -/

theorem runAction_writeReg {r : Reg} (hr : r ≠ .cmd) (w : Word) (s : State) :
    runAction (.writeReg r w) s = .next (writeReg r w { s with hostData := none }) := by
  cases r
  case cmd => exact absurd rfl hr
  all_goals rfl

/-- A 32-bit write in the register window, to another register than CMD. -/
theorem step_writeRegister {s : State} {off : Nat} {w : Word} {rest : List Input} (h : registerWrite s off w rest)
    (ho : off < 0x100) (h4 : off % 4 = 0) (hr : regAt (off / 4) ≠ .cmd) :
    step s = .next (writeReg (regAt (off / 4)) w (consumed s rest)) := by
  rw [step_writeReg h ho h4]
  exact runAction_writeReg hr w _

/-- The operand registers, which a host may write while BUSY = 0 only (R113). -/
def isOperand (r : Reg) : Bool :=
  match r with
  | .keybits | .len | .src | .dst | .pwdlen | .ctrLo | .ctrHi | .nonce0 | .nonce1 | .pwd _ | .key _ => true
  | .cmd | .status | .ctrl | .progIdx | .progCnt | .ks _ | .id | .reserved => false

/-- The registers no host write changes (10_state.md R23). -/
def isReadOnly (r : Reg) : Bool :=
  match r with
  | .progIdx | .progCnt | .ks _ | .id | .reserved => true
  | .cmd | .status | .ctrl | .keybits | .len | .src | .dst | .pwdlen | .ctrLo | .ctrHi | .nonce0 | .nonce1 | .pwd _
  | .key _ => false

theorem writeReg_operand_busy {r : Reg} (hr : isOperand r = true) (w : Word) {s : State} (hb : s.status.busy = true) :
    writeReg r w s = s := by
  cases r <;> cases hr <;> exact if_pos hb

theorem writeReg_readOnly {r : Reg} (hr : isReadOnly r = true) (w : Word) (s : State) : writeReg r w s = s := by
  cases r <;> cases hr <;> rfl

/-- The offsets `operandWrites` lists, in its order. -/
def operandOffsets : List Nat :=
  [0x00C, 0x010, 0x014, 0x018, 0x01C, 0x020, 0x024, 0x028, 0x02C]
  ++ (List.finRange 8).map (fun j => 0x040 + 4 * j.val)
  ++ (List.finRange 8).map (fun j => 0x060 + 4 * j.val)

theorem operandWrites_offsets (w : Word) (s : State) : (operandWrites w s).map Prod.fst = operandOffsets := rfl

/-- The offsets of the operand writes are aligned offsets of operand registers. -/
theorem operandWrites_register {w : Word} {s t : State} {off : Nat} (h : (off, t) ∈ operandWrites w s) :
    off < 0x100 ∧ off % 4 = 0 ∧ isOperand (regAt (off / 4)) = true := by
  have hall : ∀ off ∈ operandOffsets, off < 0x100 ∧ off % 4 = 0 ∧ isOperand (regAt (off / 4)) = true := by decide
  exact hall off (operandWrites_offsets w s ▸ List.mem_map_of_mem h)

theorem ignoredOffset_register {off : Nat} (h : ignoredOffset off) (h4 : off % 4 = 0) :
    off < 0x100 ∧ isReadOnly (regAt (off / 4)) = true := by
  have hk : ∀ k < 64, 12 ≤ k → k < 16 ∨ 32 ≤ k → isReadOnly (regAt k) = true := by decide
  unfold ignoredOffset at h
  exact ⟨by omega, hk (off / 4) (by omega) (by omega) (by omega)⟩

theorem step_writeOperand_busy {s t : State} {off : Nat} {w : Word} {rest : List Input} (h : registerWrite s off w rest)
    (hb : s.status.busy = true) (hm : (off, t) ∈ operandWrites w (consumed s rest)) :
    step s = .next (consumed s rest) := by
  obtain ⟨ho, h4, hr⟩ := operandWrites_register hm
  rw [step_writeRegister h ho h4 (fun hc => by simp [hc, isOperand] at hr),
    writeReg_operand_busy (s := consumed s rest) hr w hb]

theorem step_writeStatus {s : State} {w : Word} {rest : List Input} (h : registerWrite s 0x004 w rest) :
    step s = .next { consumed s rest with status := s.status.writeOneToClear w } := by
  rw [step_writeReg h (by decide) (by decide)]
  rfl

theorem step_writeIgnored {s : State} {off : Nat} {w : Word} {rest : List Input} (h : registerWrite s off w rest)
    (hi : ignoredOffset off) (h4 : off % 4 = 0) : step s = .next (consumed s rest) := by
  obtain ⟨ho, hr⟩ := ignoredOffset_register hi h4
  rw [step_writeRegister h ho h4 (fun hc => by simp [hc, isReadOnly] at hr), writeReg_readOnly hr]

/-- Settles O39: each clause is one kind of register access, by the register at its offset. -/
theorem registerAccessWhileBusy : Obligations.RegisterAccessWhileBusy := by
  unfold Obligations.RegisterAccessWhileBusy
  exact ⟨fun _ _ _ _ _ h hb hm => step_writeOperand_busy h hb hm, fun _ _ _ h _ => step_writeStatus h,
    fun _ _ _ h _ => step_writeCtrl h, fun _ _ _ _ h hi h4 => step_writeIgnored h hi h4,
    fun _ _ _ hk _ h => step_readRegister hk h⟩

end Sys2Proof.Proofs
end

section
/-! PROOF. The key family (41_kdf.md): when KDF and SETKEY raise KEYSIZE and what every other error leaves, what ZERO leaves, and
what the key KDF derives depends on. -/

namespace Sys2Proof.Proofs
open Sys2Proof.Machine Sys2Proof.Claims

/-! ## Key sizes (R115, R119) -/

theorem legalKeyBits_iff (s : State) : legalKeyBits s.keybits = true ↔ keyBitsLegal s := by
  simp [legalKeyBits, keyBitsLegal, or_assoc]

/-- KDF and SETKEY have the one check of R115. -/
theorem checkOf_keysize {i : Instr} {s : State} (hi : i = .kdf ∨ i = .setkey) (h : ¬ keyBitsLegal s) :
    checkOf i s = some .keysize := by
  have hl : ¬ legalKeyBits s.keybits = true := (legalKeyBits_iff s).not.mpr h
  rcases hi with rfl | rfl <;> exact if_neg hl

theorem checkKdf_none {s : State} (h : keyBitsLegal s) : checkKdf s = none := if_pos ((legalKeyBits_iff s).mpr h)

/-- The key check comes first in every keystream command (43_keystream.md R137). -/
theorem checkOf_nokey {c : Instr} {s : State} (hc : c = .ctr ∨ c = .ctre ∨ c = .ctrd ∨ c = .ksgen)
    (h : s.status.keyValid = false) : checkOf c s = some .nokey := by
  have hn : s.noKey = true := by simp [State.noKey, h]
  rcases hc with rfl | rfl | rfl | rfl <;> exact if_pos hn

/-! ## The errors' effects (R119, 60_exceptions.md R180) -/

theorem beginAccept_raiseError_keysize (s : State) : s.beginAccept.raiseError .keysize = failedKeysize s := rfl

theorem beginAccept_raiseError {e : ErrCode} (he : e ≠ .keysize) (s : State) :
    s.beginAccept.raiseError e = failed s e.code := by
  cases e
  case keysize => exact absurd rfl he
  all_goals rfl

theorem exec_keysize {i : Instr} {s : State} (hi : i = .kdf ∨ i = .setkey) (hb : s.status.busy = false)
    (h : ¬ keyBitsLegal s) : exec i s = .next (failedKeysize s) := by
  rw [exec_error hb (checkOf_keysize hi h), beginAccept_raiseError_keysize]

theorem exec_nokey {c : Instr} {s : State} (hc : c = .ctr ∨ c = .ctre ∨ c = .ctrd ∨ c = .ksgen)
    (hb : s.status.busy = false) (h : s.status.keyValid = false) : exec c s = .next (failed s 3#4) := by
  rw [exec_error hb (checkOf_nokey hc h), beginAccept_raiseError (by decide)]
  rfl

/-- Settles O8: an illegal size fails the only check of KDF and SETKEY; its side effect fails the keystream commands' first
check; and KEYSIZE, code 2, is the one error with a side effect. -/
theorem illegalKeySizeRaisesKeysize : Obligations.IllegalKeySizeRaisesKeysize := by
  unfold Obligations.IllegalKeySizeRaisesKeysize
  constructor
  · intro i s hi hb hl
    exact ⟨exec_keysize hi hb hl, fun c hc => exec_nokey hc (s := failedKeysize s) hb rfl⟩
  · intro i s t hb h he h2
    obtain ⟨e, rfl⟩ := exec_failed hb h he
    have hk : e ≠ .keysize := by
      rintro rfl
      exact h2 rfl
    rw [raiseError_errcode, beginAccept_raiseError hk]

/-! ## Commands without blocks: ZERO (R121) -/

/-- The one engine step of a latched command whose first phase is FINISH (40_sequencer.md R108). -/
theorem turns_one_latch_finish (s : State) {q : Latches} (n : Nat) (hp : q.phase = .finish) :
    turns 1 (s.latch q n) = (finishOp Config.bc q.op (s.latch q n)).complete :=
  engineTurn_finish (s := s.latch q n) rfl hp

/-- Settles O17: ZERO has no check, so an idle accept latches; its first phase is FINISH, so the next engine turn is its finish
action and its completion. -/
theorem zeroClearsTheSecrets : Obligations.ZeroClearsTheSecrets := by
  unfold Obligations.ZeroClearsTheSecrets
  refine ⟨rfl, fun s hb => ⟨latchZero s.beginAccept, exec_latch hb rfl, latchOf_beginAccept_agree .zero s, rfl, rfl, ?_⟩⟩
  rw [latchZero, turns_one_latch_finish _ _ rfl]
  rfl

/-! ## The derived key (R116, R117, R118) -/

/-- KL is 16, 24 or 32 (R115). -/
theorem wantedKeyLen_of_keyBitsLegal {s : State} (h : keyBitsLegal s) : 16 ≤ s.wantedKeyLen ∧ s.wantedKeyLen ≤ 32 := by
  unfold State.wantedKeyLen
  rcases h with h | h | h <;> rw [h] <;> decide

/-- The stretch is `T` read round and round. -/
theorem stretchKey_getD (t : Block) {kl k : Nat} (hkl : kl ≤ 32) (hk : k < kl) :
    (stretchKey t kl).getD k 0#8 = t.toList.getD (k % 16) 0#8 := by
  have ht : t.toList.length = 16 := t.length_toList
  rw [stretchKey, List.getD_eq_getElem?_getD, List.getD_eq_getElem?_getD]
  by_cases h : k < 16
  · rw [List.getElem?_append_left (by omega), Nat.mod_eq_of_lt h]
  · rw [List.getElem?_append_right (by omega), ht, List.getElem?_take_of_lt (by omega), show k % 16 = k - 16 by omega]

theorem derivedKeyByte_of_lt (bc : BlockCipher) {s : State} {k : Nat} (hs : keyBitsLegal s) (hk : k < s.wantedKeyLen) :
    derivedKeyByte bc s k = (intermediateKey bc s.params.kdfSchedSrc s.wantedKeyLen
      (s.passwordByte s.wantedKeyLen)).toList.getD (k % 16) 0#8 :=
  (if_pos hk).trans (stretchKey_getD _ (wantedKeyLen_of_keyBitsLegal hs).2 hk)

/-- A KDF with a legal key size is its accept, then its finish action. -/
theorem runOf_kdf {s : State} (hb : s.status.busy = false) (hs : keyBitsLegal s) :
    runOf 1 .kdf s = (finishKdf Config.bc (latchKdf s.beginAccept)).complete := by
  have hx : exec .kdf s = .next (latchKdf s.beginAccept) := exec_latch hb (checkKdf_none hs)
  rw [runOf, hx]
  exact turns_one_latch_finish _ _ rfl

/-- The accept moves nothing the derivation reads. -/
theorem runOf_kdf_key {s : State} (hb : s.status.busy = false) (hs : keyBitsLegal s) :
    (runOf 1 .kdf s).key = fileOfBytes 8 (derivedKeyByte Config.bc s) := by
  rw [runOf_kdf hb hs]
  rfl

theorem runOf_kdf_keyByte {s : State} {k : Nat} (hb : s.status.busy = false) (hs : keyBitsLegal s) (hk : k < 32) :
    (runOf 1 .kdf s).keyByte k = derivedKeyByte Config.bc s k := by
  rw [State.keyByte, runOf_kdf_key hb hs, wordByte_fileOfBytes _ _ hk]

/-! ## What it depends on (R122) -/

/-- The password block reads only the first `min(PWDLEN, KL)` password bytes. -/
theorem passwordByte_congr {s t : State} {kl : Nat} (hn : min t.pwdlen.toNat kl = min s.pwdlen.toNat kl)
    (hp : ∀ k, k < min s.pwdlen.toNat kl → t.pwdByte k = s.pwdByte k) : t.passwordByte kl = s.passwordByte kl := by
  funext k
  unfold State.passwordByte
  rw [hn]
  split
  · exact hp k ‹_›
  · rfl

theorem derivedKeyByte_congr (bc : BlockCipher) {s t : State} (hk : t.keybits = s.keybits)
    (hsrc : t.params.kdfSchedSrc = s.params.kdfSchedSrc)
    (hp : t.passwordByte s.wantedKeyLen = s.passwordByte s.wantedKeyLen) : derivedKeyByte bc t = derivedKeyByte bc s := by
  have hkl : t.wantedKeyLen = s.wantedKeyLen := congrArg (·.toNat / 8) hk
  funext k
  simp only [derivedKeyByte, hkl, hsrc, hp]

/-- With FIRST16 the intermediate key reads the first 16 bytes of the password block alone, whatever the key length. -/
theorem intermediateKey_first16_congr (bc : BlockCipher) (kl kl' : Nat) {p q : Nat → Byte} (h : ∀ j, j < 16 → p j = q j) :
    intermediateKey bc .first16 kl p = intermediateKey bc .first16 kl' q := by
  have hblock : (Vector.ofFn fun j : Fin 16 => p j.val) = Vector.ofFn fun j : Fin 16 => q j.val :=
    congrArg Vector.ofFn (funext fun j => h j.val j.isLt)
  have hsched : (List.range 16).map p = (List.range 16).map q :=
    List.map_congr_left fun j hj => h j (List.mem_range.mp hj)
  rw [intermediateKey, intermediateKey, kdfSchedule, kdfSchedule, hblock, hsched]

/-- The first 16 bytes of the password block are the same for every legal key length. -/
theorem passwordByte_of_lt (s : State) {kl j : Nat} (hkl : 16 ≤ kl) (hj : j < 16) :
    s.passwordByte kl j = s.passwordByte 16 j := by
  unfold State.passwordByte
  rw [if_congr (show j < min s.pwdlen.toNat kl ↔ j < min s.pwdlen.toNat 16 by omega) rfl rfl]

/-- Settles O33: KEY is the file of derived bytes, which are a function of the key size, the schedule parameter and the password
block; the stretch reads `T` modulo 16; and with FIRST16 `T` is the same for the three sizes. -/
theorem kdfLaws : Obligations.KdfLaws := by
  unfold Obligations.KdfLaws
  refine ⟨fun s t hbs hbt hs hk hsrc hn hp => ?_, fun s hb hs k hk => ?_, fun s t hb hs hsrc ht hlt k hk => ?_⟩
  · have hlt : keyBitsLegal t := by rwa [keyBitsLegal, hk]
    rw [runOf_kdf_key hbs hs, runOf_kdf_key hbt hlt, derivedKeyByte_congr _ hk hsrc (passwordByte_congr hn hp)]
  · have hkl : k + 16 < s.wantedKeyLen := hk
    have h32 := (wantedKeyLen_of_keyBitsLegal hs).2
    rw [runOf_kdf_keyByte hb hs (by omega), runOf_kdf_keyByte hb hs (by omega), derivedKeyByte_of_lt _ hs (by omega),
      derivedKeyByte_of_lt _ hs (by omega), Nat.add_mod_left]
  · have hbt : t.status.busy = false := by rw [ht]; exact hb
    have hpt : t.passwordByte = s.passwordByte := by rw [ht]; rfl
    have hsrct : t.params.kdfSchedSrc = .first16 := by rw [ht]; exact hsrc
    have h16 := (wantedKeyLen_of_keyBitsLegal hs).1
    have h16t := (wantedKeyLen_of_keyBitsLegal hlt).1
    rw [runOf_kdf_keyByte hb hs (by omega), runOf_kdf_keyByte hbt hlt (by omega), derivedKeyByte_of_lt _ hs (by omega),
      derivedKeyByte_of_lt _ hlt (by omega), hsrc, hsrct, hpt, intermediateKey_first16_congr _ _ _ fun j hj => ?_]
    rw [passwordByte_of_lt s h16t hj, passwordByte_of_lt s h16 hj]

end Sys2Proof.Proofs
end

section
/-! PROOF. The counter (42_counter.md): the counter block and its halves, the index past 2^64, and CTR from its accept to its
completion. -/

namespace Sys2Proof.Proofs
open Sys2Proof.Machine Sys2Proof.Claims

/-! ## The counter block (R124, R125, R128) -/

/-- Settles O29: each half of the counter block is the encoding of a word, whose bytes are the word's base-256 digits. -/
theorem counterBlockLayout : Obligations.CounterBlockLayout := by
  unfold Obligations.CounterBlockLayout
  intro o n b j hn hb hj
  rw [counterBlock_getD o n b j hn hj]
  split
  · rfl
  · split
    · rw [enc32_getD o _ _ (by omega), indexHi_toNat hb, show 3 - (j - 8) = 11 - j by omega]
    · rw [enc32_getD o _ _ (by omega), indexLo_toNat, show 3 - (j - 12) = 15 - j by omega]

theorem indexLo_succ (b : Nat) : indexLo (b + 1) = indexLo b + 1#32 := by
  apply BitVec.eq_of_toNat_eq
  rw [BitVec.toNat_add, indexLo_toNat, indexLo_toNat]
  simp

theorem indexLo_eq_max_iff (b : Nat) : indexLo b = 0xFFFFFFFF#32 ↔ b % 2 ^ 32 = 2 ^ 32 - 1 := by
  rw [← BitVec.toNat_inj, indexLo_toNat]
  rfl

/-- The high half gains 1 exactly when the low half is at its maximum (R128). -/
theorem indexHi_succ_toNat {b : Nat} (h : b + 1 < 2 ^ 64) : (indexHi (b + 1)).toNat =
    if indexLo b = 0xFFFFFFFF#32 then (indexHi b).toNat + 1 else (indexHi b).toNat := by
  rw [indexHi_toNat h, indexHi_toNat (by omega), if_congr (indexLo_eq_max_iff b) rfl rfl]
  split <;> omega

/-- The halves of an index are that index (R124). -/
theorem indexHi_indexLo_toNat {b : Nat} (h : b < 2 ^ 64) : 2 ^ 32 * (indexHi b).toNat + (indexLo b).toNat = b := by
  rw [indexHi_toNat h, indexLo_toNat]
  exact Nat.div_add_mod b (2 ^ 32)

/-- Settles O31: the low half counts modulo 2^32 and the high half gains its carry; the listed counter blocks are the two
encoded halves at the boundary. -/
theorem counterCarriesIntoTheHighHalf : Obligations.CounterCarriesIntoTheHighHalf := by
  unfold Obligations.CounterCarriesIntoTheHighHalf
  constructor
  · intro b hb
    exact ⟨indexLo_succ b, indexHi_succ_toNat (by omega), indexHi_indexLo_toNat (by omega)⟩
  · intro n _
    have hlast : enc32 .le (indexHi (2 ^ 32 - 1)) ++ enc32 .le (indexLo (2 ^ 32 - 1))
        = [0x00#8, 0x00#8, 0x00#8, 0x00#8, 0xFF#8, 0xFF#8, 0xFF#8, 0xFF#8] := by decide
    have hnext : enc32 .le (indexHi (2 ^ 32)) ++ enc32 .le (indexLo (2 ^ 32))
        = [0x01#8, 0x00#8, 0x00#8, 0x00#8, 0x00#8, 0x00#8, 0x00#8, 0x00#8] := by decide
    rw [counterBytes, counterBytes, List.append_assoc, List.append_assoc, hlast, hnext]
    exact ⟨rfl, rfl⟩

/-! ## The index past 2^64 (R129) -/

theorem ctrOverflow_iff (b n : Nat) : ctrOverflow b n = true ↔ 0 < n ∧ 2 ^ 64 ≤ b + n - 1 := by simp [ctrOverflow]

/-- The overflow check is CTR's last (43_keystream.md R145). -/
theorem checkCtr_ctrovf {s : State} (hk : s.status.keyValid = true) (hsrc : fits s s.src.toNat s.len.toNat)
    (hdst : fits s s.dst.toNat s.len.toNat) (ho : ctrOverflow s.ctr64 (blockCount s.len.toNat) = true) :
    checkCtr s = some .ctrovf := by
  have hr : inRange s.params s.src.toNat s.len.toNat = true ∧ inRange s.params s.dst.toNat s.len.toNat = true :=
    ⟨decide_eq_true hsrc, decide_eq_true hdst⟩
  simp [checkCtr, State.noKey, hk, hr, ho]

/-- No other command checks its index. -/
theorem checkOf_ne_ctrovf {i : Instr} (hi : i ≠ .ctr) (s : State) : checkOf i s ≠ some .ctrovf := by
  cases i
  case ctr => exact absurd rfl hi
  case nop | zero => exact nofun
  all_goals
    simp only [checkOf, checkKdf, checkSetkey, checkCtre, checkCtrd, checkKsgen]
    split_ifs <;> exact nofun

theorem code_eq_ctrovf {e : ErrCode} (h : e.code = 6#4) : e = .ctrovf := by
  cases e
  case ctrovf => rfl
  all_goals exact absurd h (by decide)

/-- Settles O12: with a key and its ranges in BUF, CTR is left with the overflow check; and an accept's ERRCODE is 0 or the code
of a check its command has. -/
theorem indexExhaustionRaisesCtrovf : Obligations.IndexExhaustionRaisesCtrovf := by
  unfold Obligations.IndexExhaustionRaisesCtrovf
  constructor
  · intro s hb hk hsrc hdst hn ho
    rw [exec_error (i := .ctr) hb (checkCtr_ctrovf hk hsrc hdst ((ctrOverflow_iff _ _).mpr ⟨hn, ho⟩)),
      beginAccept_raiseError (by decide)]
    rfl
  · intro i s t hi hb h h6
    rcases exec_cases h with ⟨hb', _⟩ | ⟨_, e, he, rfl⟩ | ⟨_, _, rfl⟩
    · rw [hb] at hb'; cases hb'
    · rw [raiseError_errcode] at h6
      exact checkOf_ne_ctrovf hi _ (code_eq_ctrovf h6 ▸ he)
    · obtain ⟨q, _, hl⟩ := latchOf_eq i s.beginAccept
      simp [hl] at h6

/-! ## CTR from its accept to its completion (R130, 43_keystream.md R145) -/

/-- A register's length has few enough blocks for PROG_CNT to hold their count. -/
theorem latchCtr_progCnt_toNat (s : State) :
    (latchCtr Config.bc s.beginAccept).progCnt.toNat = blockCount s.len.toNat := by
  have hcount := blockCount_lt s.len.isLt
  have hcnt : (latchCtr Config.bc s.beginAccept).progCnt = BitVec.ofNat 32 (blockCount s.len.toNat) := rfl
  rw [hcnt, BitVec.toNat_ofNat, Nat.mod_eq_of_lt (by omega)]

/-- A write of the next index is that index's two words: a word drops what lies above it. -/
theorem writeNextIndex_eq (s : State) (b : Nat) :
    s.writeNextIndex b = { s with ctrLo := BitVec.ofNat 32 b, ctrHi := BitVec.ofNat 32 (b / 2 ^ 32) } := by
  have hlo : BitVec.ofNat 32 (b % 2 ^ 32) = BitVec.ofNat 32 b := BitVec.eq_of_toNat_eq (by simp)
  have hhi : BitVec.ofNat 32 (b % 2 ^ 64 / 2 ^ 32) = BitVec.ofNat 32 (b / 2 ^ 32) := by
    apply BitVec.eq_of_toNat_eq
    simp only [BitVec.toNat_ofNat]
    omega
  rw [State.writeNextIndex, hlo, hhi]

/-- The keystream of a latched CTR is the message's from index CTR64: the accept moves neither key nor nonce. -/
theorem latchCtr_runningKeystream (s : State) (x : Nat) :
    runningKeystream (latchCtr Config.bc s.beginAccept) x = keystreamByte s s.nonceBytes s.ctr64 x := by
  rw [← ctrHi_append_ctrLo_toNat s]
  rfl

/-- CTR's finish action advances CTR64 by the block count and writes nothing else (R130). -/
theorem finishCtr_latchCtr (s : State) (b : Memory) (i : Word) :
    finishCtr { latchCtr Config.bc s.beginAccept with buf := b, progIdx := i } =
      { latchCtr Config.bc s.beginAccept with
        buf := b
        progIdx := i
        ctrLo := BitVec.ofNat 32 (s.ctr64 + blockCount s.len.toNat)
        ctrHi := BitVec.ofNat 32 ((s.ctr64 + blockCount s.len.toNat) / 2 ^ 32) } := by
  rw [finishCtr, writeNextIndex_eq, ← ctrHi_append_ctrLo_toNat s, ← latchCtr_progCnt_toNat]
  rfl

/-- A CTR with all its blocks done, after its finish action and completion. -/
theorem finishCtr_complete_agree (s : State) (b : Memory) :
    agree (finishCtr { latchCtr Config.bc s.beginAccept with
        buf := b, progIdx := BitVec.ofNat 32 (blockCount s.len.toNat) }).complete
      { finished s (blockCount s.len.toNat) with
        buf := b
        ctrLo := BitVec.ofNat 32 (s.ctr64 + blockCount s.len.toNat)
        ctrHi := BitVec.ofNat 32 ((s.ctr64 + blockCount s.len.toNat) / 2 ^ 32) } := by
  rw [finishCtr_latchCtr]
  rfl

/-- Settles O20: an idle accept whose checks pass latches, and what follows is the run of block steps and the finish step of
`blocks_finish`. -/
theorem ctrTransformsTheMessage : Obligations.CtrTransformsTheMessage := by
  unfold Obligations.CtrTransformsTheMessage
  intro s hb hk hsrc hdst hn
  have hexec : exec .ctr s = .next (latchCtr Config.bc s.beginAccept) :=
    exec_latch hb (checkCtr_none.mpr ⟨hk, ⟨hsrc, hdst⟩, hn⟩)
  have hcnt := latchCtr_progCnt_toNat s
  obtain ⟨hbusy, b, hrun, hframe, hexact⟩ := blocks_finish (s := latchCtr Config.bc s.beginAccept) rfl rfl rfl hcnt
  rw [hcnt] at hbusy hrun
  refine ⟨_, _, hexec, hrun.symm, hbusy, finishCtr_complete_agree s b, hframe, fun hl j hj => ?_⟩
  have hbyte := hexact hl (s.dst.toNat + j) ⟨Nat.le_add_right _ _, Nat.add_lt_add_left hj _⟩
  have hpos : s.dst.toNat + j - (latchCtr Config.bc s.beginAccept).seq.dst.toNat = j := Nat.add_sub_cancel_left _ _
  rw [latchCtr_runningKeystream, hpos] at hbyte
  exact hbyte

end Sys2Proof.Proofs
end

section
/-! PROOF. The keystream commands (43_keystream.md): the errors NOKEY and RANGE, what one block step writes, and a CTRE and a CTRD
of its frame from accept to completion. -/

namespace Sys2Proof.Proofs
open Sys2Proof.Machine Sys2Proof.Claims

/-! ## The key check and the range check (R137, R138) -/

/-- Settles O9: the key check is the first of the four commands' checks. -/
theorem noValidKeyRaisesNokey : Obligations.NoValidKeyRaisesNokey := by
  unfold Obligations.NoValidKeyRaisesNokey
  intro i s hi hb hk
  exact exec_nokey hi hb hk

/-- The range check of a command with two ranges fails exactly when one of them does not fit. -/
theorem rangeCheck_iff (s : State) (a n b m : Nat) :
    (!inRange s.params a n || !inRange s.params b m) = true ↔ ∃ r ∈ [(a, n), (b, m)], ¬ fits s r.1 r.2 := by
  simp [inRange, fits]

/-- With a valid key, and for CTRD a whole nonce, the range check is the next one (R145, R147, R149). -/
theorem checkOf_range {i : Instr} {s : State} (hi : i = .ctr ∨ i = .ctre ∨ i = .ctrd) (hk : s.status.keyValid = true)
    (h8 : i = .ctrd → 8 ≤ s.len.toNat) (hr : ∃ r ∈ bufRanges i s, ¬ fits s r.1 r.2) : checkOf i s = some .range := by
  have hkey : ¬ s.noKey = true := by simp [State.noKey, hk]
  rcases hi with rfl | rfl | rfl
  · rw [checkOf, checkCtr, if_neg hkey, if_pos ((rangeCheck_iff s _ _ _ _).mpr hr)]
  · rw [checkOf, checkCtre, if_neg hkey, if_pos ((rangeCheck_iff s _ _ _ _).mpr hr)]
  · rw [checkOf, checkCtrd, if_neg hkey, if_neg (Nat.not_lt.mpr (h8 rfl)), if_pos ((rangeCheck_iff s _ _ _ _).mpr hr)]

/-- Settles O11: an idle accept whose range check is the first to fail raises RANGE, which has no side effect. -/
theorem rangePastBufRaisesRange : Obligations.RangePastBufRaisesRange := by
  unfold Obligations.RangePastBufRaisesRange
  intro i s hi hb hk h8 hr
  rw [exec_error hb (checkOf_range hi hk h8 hr), beginAccept_raiseError (by decide)]
  rfl

/-! ## One block step (R135, R139, R141) -/

/-- Settles O23: the turn is the block step, whose every byte `blockStep_readByte` gives; PROG_IDX alone moves besides BUF. -/
theorem blockStepXorsOneBlock : Obligations.BlockStepXorsOneBlock := by
  unfold Obligations.BlockStepXorsOneBlock
  rintro s ⟨hb, hp, hi⟩
  have hidx : s.progIdx + 1#32 = BitVec.ofNat 32 (s.progIdx.toNat + 1) := by simp [BitVec.ofNat_add]
  refine ⟨s.blockStep Config.bc, _, _, engineTurn_block hb hp hi, rfl, rfl, ?_, blockStep_readByte Config.bc s⟩
  rw [← hidx]
  exact blockStep_eq Config.bc s

/-! ## A latched command with a frame step (R147, R149) -/

/-- The frame step comes first. -/
theorem turns_frame (k : Nat) {s : State} (hb : s.status.busy = true) (hp : s.seq.phase = .frame) :
    turns (k + 1) s = turns k s.frameStep := by
  rw [turns_succ, engineTurn_frame hb hp]

/-- The block steps and the finish step of a CTRE or a CTRD, which have no finish action: besides PROG_IDX and what completion
moves, BUF alone has changed, as `blocks_finish` says. -/
theorem blocks_finish_framed {s u : State} (ho : s.seq.op = .ctre ∨ s.seq.op = .ctrd) (hb : s.status.busy = true)
    (hp : s.seq.phase = .blocks) (h0 : s.progIdx = 0#32) (hN : s.progCnt.toNat = blockCount s.seq.len.toNat)
    (hu : u = turns (s.progCnt.toNat + 1) s) :
    u = ({ s with buf := u.buf, progIdx := s.progCnt } : State).complete
    ∧ (∀ a, ¬ (s.seq.dst.toNat ≤ a ∧ a < s.seq.dst.toNat + s.seq.len.toNat) → u.readByte a = s.readByte a)
    ∧ (s.seq.dst.toNat ≤ s.seq.src.toNat ∨ s.seq.src.toNat + s.seq.len.toNat ≤ s.seq.dst.toNat →
        ∀ a, s.seq.dst.toNat ≤ a ∧ a < s.seq.dst.toNat + s.seq.len.toNat →
          u.readByte a = s.readByte (s.seq.src.toNat + (a - s.seq.dst.toNat)) ^^^ runningKeystream s (a - s.seq.dst.toNat)) := by
  obtain ⟨-, b, hrun, hframe, hexact⟩ := blocks_finish hb hp h0 hN
  have hfinish : ∀ t : State, finishOp Config.bc s.seq.op t = t := by
    rcases ho with ho | ho <;> rw [ho] <;> exact fun _ => rfl
  rw [hfinish] at hrun
  obtain rfl : u = ({ s with buf := b, progIdx := s.progCnt } : State).complete := hu.trans hrun
  exact ⟨rfl, hframe, hexact⟩

theorem runOf_next {i : Instr} {s t : State} (k : Nat) (h : exec i s = .next t) : runOf k i s = turns k t := by
  rw [runOf, h]

/-- PROG_CNT holds the block count of any length a register holds. -/
theorem ofNat_blockCount_toNat {l : Nat} (h : l < 2 ^ 32) : (BitVec.ofNat 32 (blockCount l)).toNat = blockCount l := by
  have := blockCount_lt h
  rw [BitVec.toNat_ofNat, Nat.mod_eq_of_lt (by omega)]

/-- A word moved up by the nonce's 8 bytes inside BUF does not wrap. -/
theorem add_eight_toNat {s : State} {w : Word} (h : fits s w.toNat 8) : (w + 8#32).toNat = w.toNat + 8 := by
  have := bufBytes_le s.params
  unfold fits at h
  rw [BitVec.toNat_add, BitVec.toNat_ofNat]
  omega

/-- The keystream reads the counter's byte order and the live key of a state, and nothing else. -/
theorem keystreamByte_congr {s t : State} (ho : t.params.ctrByteOrder = s.params.ctrByteOrder) (hk : t.liveKey = s.liveKey)
    (nonce : List Byte) (b0 j : Nat) : keystreamByte t nonce b0 j = keystreamByte s nonce b0 j := by
  rw [keystreamByte, keystreamByte, ho, hk]

@[simp] theorem nonceBytes_length (s : State) : s.nonceBytes.length = 8 := rfl

/-- NONCEBYTES determines both registers (10_state.md R31). -/
theorem nonce_eq_of_nonceBytes_eq {s t : State} (h : t.nonceBytes = s.nonceBytes) :
    t.nonce0 = s.nonce0 ∧ t.nonce1 = s.nonce1 := by
  obtain ⟨h0, h1⟩ := List.append_inj h rfl
  rw [← fromLe32_le32 t.nonce0, ← fromLe32_le32 t.nonce1, h0, h1, fromLe32_le32, fromLe32_le32]
  exact ⟨rfl, rfl⟩

/-! ## CTRE from its accept to its completion (R147) -/

/-- A CTRE whose checks passed, after its frame step. -/
def ctreBlocks (s : State) : State := (latchCtre Config.bc s.beginAccept).frameStep

/-- The frame step has written the nonce at DST. -/
theorem ctreBlocks_readByte (s : State) (a : Nat) : (ctreBlocks s).readByte a =
    if s.dst.toNat ≤ a ∧ a < s.dst.toNat + 8 then s.nonceBytes.getD (a - s.dst.toNat) 0#8 else s.readByte a :=
  readByte_memWrite s s.dst.toNat a s.nonceBytes

theorem ctreBlocks_runningKeystream (s : State) (x : Nat) :
    runningKeystream (ctreBlocks s) x = keystreamByte s s.nonceBytes 0 x := rfl

/-- A CTRE whose checks pass: only the progress, the outcome and BUF differ at the end, the frame begins with the nonce, and in
an exact layout (R144) the rest of the frame is the transformed message. -/
theorem runOf_ctre {s u : State} (hb : s.status.busy = false) (hk : s.status.keyValid = true)
    (hsrc : fits s s.src.toNat s.len.toNat) (hdst : fits s s.dst.toNat (8 + s.len.toNat))
    (hu : u = runOf (blockCount s.len.toNat + 2) .ctre s) :
    agree u { finished s (blockCount s.len.toNat) with buf := u.buf }
    ∧ (∀ j, j < 8 → u.readByte (s.dst.toNat + j) = s.nonceBytes.getD j 0#8)
    ∧ (s.dst.toNat + 8 ≤ s.src.toNat ∨ s.src.toNat + s.len.toNat ≤ s.dst.toNat →
        ∀ j, j < s.len.toNat →
          u.readByte (s.dst.toNat + 8 + j) = s.readByte (s.src.toNat + j) ^^^ keystreamByte s s.nonceBytes 0 j) := by
  have hexec : exec .ctre s = .next (latchCtre Config.bc s.beginAccept) := exec_latch hb (checkCtre_none.mpr ⟨hk, hsrc, hdst⟩)
  have hcnt : (ctreBlocks s).progCnt.toNat = blockCount s.len.toNat := ofNat_blockCount_toNat s.len.isLt
  have hout : (ctreBlocks s).seq.dst.toNat = s.dst.toNat + 8 :=
    add_eight_toNat (s := s) (w := s.dst) (by unfold fits at hdst ⊢; omega)
  have hin : (ctreBlocks s).seq.src.toNat = s.src.toNat := rfl
  have hlen : (ctreBlocks s).seq.len.toNat = s.len.toNat := rfl
  have hturns : u = turns (blockCount s.len.toNat + 1) (ctreBlocks s) := by
    rw [hu, runOf_next _ hexec, turns_frame _ rfl rfl, ctreBlocks]
  obtain ⟨hend, hframe, hexact⟩ := blocks_finish_framed (s := ctreBlocks s) (.inl rfl) rfl rfl rfl hcnt (hcnt ▸ hturns)
  rw [hout, hin, hlen] at hexact
  rw [hout, hlen] at hframe
  refine ⟨by rw [hend]; rfl, fun j hj => ?_, fun hl j hj => ?_⟩
  · rw [hframe _ (by omega), ctreBlocks_readByte, if_pos (by omega), Nat.add_sub_cancel_left]
  · rw [hexact (by omega) _ (by omega), ctreBlocks_readByte, if_neg (by omega), ctreBlocks_runningKeystream,
      Nat.add_sub_cancel_left]

/-! ## CTRD from its accept to its completion (R149) -/

/-- A CTRD whose checks passed, after its frame step. -/
def ctrdBlocks (s : State) : State := (latchCtrd Config.bc s.beginAccept).frameStep

/-- The frame step has loaded NONCE from the 8 bytes at SRC. -/
theorem ctrdBlocks_nonceBytes (s : State) : (ctrdBlocks s).nonceBytes = s.memRead s.src.toNat 8 := by
  have hload : (ctrdBlocks s).nonceBytes
      = le32 (fromLe32 (s.memRead s.src.toNat 4)) ++ le32 (fromLe32 (s.memRead (s.src.toNat + 4) 4)) := rfl
  rw [hload, le32_fromLe32_memRead, le32_fromLe32_memRead]
  simp [State.memRead, List.range_succ, Nat.add_assoc]

/-- CTRD's frame step writes no BUF byte. -/
theorem ctrdBlocks_readByte (s : State) (a : Nat) : (ctrdBlocks s).readByte a = s.readByte a := rfl

theorem ctrdBlocks_runningKeystream (s : State) (x : Nat) :
    runningKeystream (ctrdBlocks s) x = keystreamByte s (ctrdBlocks s).nonceBytes 0 x := rfl

/-- A CTRD whose checks pass, of a frame with an `l`-byte body: NONCE is the frame's first 8 bytes, and in an exact layout (R144)
the output is the body, transformed with that nonce. -/
theorem runOf_ctrd {s u : State} {l : Nat} (hb : s.status.busy = false) (hk : s.status.keyValid = true)
    (hlen : s.len.toNat = l + 8) (hsrc : fits s s.src.toNat (l + 8)) (hdst : fits s s.dst.toNat l)
    (hu : u = runOf (blockCount l + 2) .ctrd s) :
    u.nonceBytes = s.memRead s.src.toNat 8
    ∧ (s.dst.toNat ≤ s.src.toNat + 8 ∨ s.src.toNat + (l + 8) ≤ s.dst.toNat →
        ∀ j, j < l →
          u.readByte (s.dst.toNat + j) = s.readByte (s.src.toNat + 8 + j) ^^^ keystreamByte s u.nonceBytes 0 j) := by
  have hbody : s.len.toNat - 8 = l := by omega
  have hcheck : checkCtrd s = none := checkCtrd_none.mpr ⟨hk, by omega, by rwa [hlen], by rwa [hbody]⟩
  have hexec : exec .ctrd s = .next (latchCtrd Config.bc s.beginAccept) := exec_latch hb hcheck
  have hcnt : (ctrdBlocks s).progCnt.toNat = blockCount l := by
    rw [← hbody]
    exact ofNat_blockCount_toNat (Nat.lt_of_le_of_lt (Nat.sub_le _ _) s.len.isLt)
  have hin : (ctrdBlocks s).seq.src.toNat = s.src.toNat + 8 :=
    add_eight_toNat (s := s) (w := s.src) (by unfold fits at hsrc ⊢; omega)
  have hout : (ctrdBlocks s).seq.dst.toNat = s.dst.toNat := rfl
  have hseq : (ctrdBlocks s).seq.len.toNat = l := by
    rw [← hbody]
    exact BitVec.toNat_sub_of_le (show 8 ≤ s.len.toNat by omega)
  have hturns : u = turns (blockCount l + 1) (ctrdBlocks s) := by
    rw [hu, runOf_next _ hexec, turns_frame _ rfl rfl, ctrdBlocks]
  obtain ⟨hend, -, hexact⟩ :=
    blocks_finish_framed (s := ctrdBlocks s) (.inr rfl) rfl rfl rfl (by rw [hcnt, hseq]) (hcnt ▸ hturns)
  have hnonce : u.nonceBytes = (ctrdBlocks s).nonceBytes := (congrArg State.nonceBytes hend :)
  rw [hout, hin, hseq] at hexact
  refine ⟨hnonce.trans (ctrdBlocks_nonceBytes s), fun hl j hj => ?_⟩
  rw [hexact (by omega) _ (by omega), ctrdBlocks_readByte, ctrdBlocks_runningKeystream, hnonce, Nat.add_sub_cancel_left]

/-! ## The round trip (R150) -/

/-- A read of BUF is the byte sequence it finds there. -/
theorem memRead_eq_of_readByte {s : State} {a : Nat} {bs : List Byte}
    (h : ∀ j, j < bs.length → s.readByte (a + j) = bs.getD j 0#8) : s.memRead a bs.length = bs := by
  refine List.ext_getElem (memRead_length s a _) fun j _ hj => ?_
  rw [← List.getD_eq_getElem _ 0#8, memRead_getD s a _ j hj, h j hj, List.getD_eq_getElem bs 0#8 hj]

/-- A CTRD of a nonce followed by `l` bytes of a message `m` XORed with that nonce's keystream loads the nonce and writes the
message: it XORs the same keystream a second time. -/
theorem runOf_ctrd_frame {s u : State} {l : Nat} {nonce : List Byte} {m : Nat → Byte} (hb : s.status.busy = false)
    (hk : s.status.keyValid = true) (hlen : s.len.toNat = l + 8) (hsrc : fits s s.src.toNat (l + 8))
    (hdst : fits s s.dst.toNat l) (hl : s.dst.toNat ≤ s.src.toNat + 8 ∨ s.src.toNat + (l + 8) ≤ s.dst.toNat)
    (hn : nonce.length = 8) (hnonce : ∀ j, j < 8 → s.readByte (s.src.toNat + j) = nonce.getD j 0#8)
    (hbody : ∀ j, j < l → s.readByte (s.src.toNat + 8 + j) = m j ^^^ keystreamByte s nonce 0 j)
    (hu : u = runOf (blockCount l + 2) .ctrd s) :
    u.nonceBytes = nonce ∧ ∀ j, j < l → u.readByte (s.dst.toNat + j) = m j := by
  obtain ⟨hload, hexact⟩ := runOf_ctrd hb hk hlen hsrc hdst hu
  have hloaded : u.nonceBytes = nonce := by
    rw [hload, ← hn]
    exact memRead_eq_of_readByte fun j hj => hnonce j (hn ▸ hj)
  refine ⟨hloaded, fun j hj => ?_⟩
  rw [hexact hl j hj, hbody j hj, hloaded, BitVec.xor_assoc, BitVec.xor_self, BitVec.xor_zero]

/-- Settles O36: CTRE's frame is NONCE and the message XORed with NONCE's keystream, and `runOf_ctrd_frame` undoes it: neither
CTRE nor the writes between move the key or the parameters. -/
theorem framedRoundTrip : Obligations.FramedRoundTrip := by
  unfold Obligations.FramedRoundTrip
  intro s dst n0 n1 hb hk hsrc hframe hdst hmsg hback u hu
  obtain ⟨hend, hnonce, hbody⟩ := runOf_ctre hb hk hsrc hframe rfl
  generalize runOf (blockCount s.len.toNat + 2) .ctre s = v at hu hend hnonce hbody
  have hparams : v.params = s.params := (congrArg State.params hend :)
  have hbusy : v.status.busy = false := (congrArg (·.status.busy) hend :)
  have hkey : v.status.keyValid = true := (congrArg (·.status.keyValid) hend :).trans hk
  have hks : ∀ j, keystreamByte v s.nonceBytes 0 j = keystreamByte s s.nonceBytes 0 j :=
    keystreamByte_congr (congrArg Params.ctrByteOrder hparams) (congrArg State.liveKey hend :) s.nonceBytes 0
  have hfits : ∀ {a n}, fits s a n → fits v a n := fun h => by rwa [fits, hparams]
  have hlen : (BitVec.ofNat 32 (s.len.toNat + 8)).toNat = s.len.toNat + 8 := by
    have := bufBytes_le s.params
    unfold fits at hframe
    rw [BitVec.toNat_ofNat, Nat.mod_eq_of_lt (by omega)]
  obtain ⟨hn, hm⟩ := runOf_ctrd_frame (m := fun j => s.readByte (s.src.toNat + j))
    (s := { v with src := s.dst, dst := dst, len := BitVec.ofNat 32 (s.len.toNat + 8), nonce0 := n0, nonce1 := n1 })
    hbusy hkey hlen (hfits (Nat.add_comm 8 _ ▸ hframe)) (hfits hdst) (by simp only; omega) (nonceBytes_length s) hnonce
    (fun j hj => (hbody (by omega) j hj).trans (congrArg _ (hks j).symm)) hu
  exact ⟨hm, nonce_eq_of_nonceBytes_eq hn⟩

end Sys2Proof.Proofs
end

section
/-! PROOF. Errors and the interrupt (60_exceptions.md): which error a CMD write raises, what it changes, its acknowledge, and
the interrupt line. -/

namespace Sys2Proof.Proofs
open Sys2Proof.Machine Sys2Proof.Claims

/-! ## The checks of R176 as the machine's -/

theorem checkFails_keysize (i : Instr) (s : State) : checkFails i s 2 = !legalKeyBits s.keybits := by
  simp [checkFails, legalKeyBits]

theorem checkFails_nokey (i : Instr) (s : State) : checkFails i s 3 = s.noKey := by simp [checkFails, State.noKey]

theorem checkFails_malformed (i : Instr) (s : State) : checkFails i s 4 = decide (s.len.toNat < 8) := by
  simp [checkFails]

theorem checkFails_range {i : Instr} {s : State} {a n b m : Nat} (h : bufRanges i s = [(a, n), (b, m)]) :
    checkFails i s 5 = (!inRange s.params a n || !inRange s.params b m) := by
  simp [checkFails, h, inRange, ← decide_not]

theorem blockCount_pos_iff (l : Nat) : 0 < blockCount l ↔ 0 < l := by
  unfold blockCount
  omega

theorem checkFails_ctrovf (i : Instr) (s : State) :
    checkFails i s 6 = ctrOverflow s.ctr64 (blockCount s.len.toNat) := by
  rw [Bool.eq_iff_iff, ctrOverflow_iff, blockCount_pos_iff]
  simp [checkFails, State.ctr64, blockCount]

/-! ## The first failing check (R177) -/

theorem find_cons_ite (p : Nat → Bool) (c : Nat) (cs : List Nat) :
    (c :: cs).find? p = if p c then some c else cs.find? p := by
  rw [List.find?_cons]
  cases p c <;> rfl

/-- Command by command, R177's order is the order of the machine's checks: both sides are one chain of conditions. -/
theorem find_checkFails (i : Instr) (s : State) :
    (checkOrder i).find? (checkFails i s) = (checkOf i s).map fun e => e.code.toNat := by
  cases i <;> simp only [checkOrder, checkOf, find_cons_ite, List.find?_nil]
  case nop | zero => rfl
  case kdf | setkey =>
    simp only [checkFails_keysize, checkKdf, checkSetkey]
    cases legalKeyBits s.keybits <;> rfl
  case ksgen =>
    simp only [checkFails_nokey, checkKsgen, apply_ite (Option.map _)]
    rfl
  case ctr =>
    simp only [checkFails_nokey, checkFails_range (i := .ctr) (s := s) rfl, checkFails_ctrovf, checkCtr,
      apply_ite (Option.map _)]
    rfl
  case ctre =>
    simp only [checkFails_nokey, checkFails_range (i := .ctre) (s := s) rfl, checkCtre, apply_ite (Option.map _)]
    rfl
  case ctrd =>
    simp only [checkFails_nokey, checkFails_malformed, checkFails_range (i := .ctrd) (s := s) rfl, checkCtrd,
      apply_ite (Option.map _), decide_eq_true_eq]
    rfl

theorem errorOf_command {w : Word} {i : Instr} (h : decode w = .ok i) (s : State) :
    errorOf w s = (checkOf i s).map fun e => e.code.toNat := by
  rw [errorOf, (wordIsCommandExactlyWhenEqualToItsOpcode w i).1.mp h, ← find_checkFails]
  cases i <;> rfl

theorem errorOf_illegal {w : Word} {e : DecodeError} (h : decode w = .error e) (s : State) : errorOf w s = some 1 := by
  refine if_pos ?_
  have hfields := (decode_error_iff w).mp ⟨e, h⟩
  simp only [ne_eq, ← BitVec.toNat_inj, BitVec.extractLsb'_toNat, Nat.shiftRight_eq_div_pow, BitVec.toNat_ofNat] at hfields
  omega

/-- A write of CMD while BUSY = 0 raises the error R177 names or, when there is none, accepts the command. -/
theorem writeCmd_errorOf (w : Word) {s : State} (hb : s.status.busy = false) :
    (∃ e : ErrCode, errorOf w s = some e.code.toNat ∧ writeCmd w s = .next (s.beginAccept.raiseError e))
    ∨ errorOf w s = none ∧ ∃ i, writeCmd w s = .next (latchOf i s.beginAccept) := by
  cases hd : decode w with
  | error e => exact .inl ⟨.illegal, errorOf_illegal hd s, writeCmd_illegal hb hd⟩
  | ok i =>
    rw [writeCmd_command hb hd, errorOf_command hd]
    cases hc : checkOf i s with
    | some e => exact .inl ⟨e, rfl, exec_error hb hc⟩
    | none => exact .inr ⟨rfl, i, exec_latch hb hc⟩

theorem latchOf_beginAccept_status (i : Instr) (s : State) :
    (latchOf i s.beginAccept).status = (accepted s 0).status :=
  (congrArg State.status (latchOf_beginAccept_agree i s) :)

/-- Settles O6: the step is the write of CMD, which raises the error of the first failing check or latches. -/
theorem firstFailingCheckIsReported : Obligations.FirstFailingCheckIsReported := by
  unfold Obligations.FirstFailingCheckIsReported
  intro s w rest h hb
  have hstep : step s = writeCmd w (consumed s rest) := step_writeCmd h
  have hsame : errorOf w (consumed s rest) = errorOf w s := rfl
  rw [hstep, ← hsame]
  rcases writeCmd_errorOf w (s := consumed s rest) hb with ⟨e, he, ht⟩ | ⟨he, i, ht⟩
  · refine ⟨_, ht, fun code hc => ?_, fun hn => by simp [he] at hn⟩
    obtain rfl : e.code.toNat = code := Option.some.inj (he.symm.trans hc)
    simp [hb, consumed]
  · refine ⟨_, ht, fun code hc => by simp [he] at hc, fun _ => ?_⟩
    rw [latchOf_beginAccept_status]
    exact ⟨rfl, rfl, rfl, rfl⟩

/-! ## What an error changes (R180, R181) -/

theorem code_ne_zero (e : ErrCode) : e.code ≠ 0#4 := by cases e <;> decide

/-- KEYSIZE is the one error of code 2. -/
theorem code_eq_keysize_iff (e : ErrCode) : e.code = 2#4 ↔ e = .keysize := by cases e <;> decide

/-- A CMD write that leaves ERR set raised an error: an accept that latches has cleared it (R106). -/
theorem writeCmd_failed {w : Word} {s t : State} (hb : s.status.busy = false) (h : writeCmd w s = .next t)
    (he : t.status.err = true) : ∃ e, t = s.beginAccept.raiseError e := by
  rcases writeCmd_cases h with ⟨hb', _⟩ | ⟨_, e, ht⟩ | ⟨_, i, _, _, rfl⟩
  · rw [hb] at hb'; cases hb'
  · exact ⟨e, ht⟩
  · rw [latchOf_beginAccept_status] at he
    cases he

/-- Settles O7: the step is the shared error entry after the start of an accept, whose one side effect is KEYSIZE's. -/
theorem errorsArePrecise : Obligations.ErrorsArePrecise := by
  unfold Obligations.ErrorsArePrecise
  intro s t w rest h hb hs he
  obtain ⟨e, rfl⟩ := writeCmd_failed (s := consumed s rest) hb ((step_writeCmd h).symm.trans hs) he
  rw [raiseError_errcode]
  refine ⟨code_ne_zero e, by simp [State.irq, consumed], fun h2 => ?_, fun h2 => ?_⟩
  · exact beginAccept_raiseError ((code_eq_keysize_iff e).not.mp h2) _
  · rw [(code_eq_keysize_iff e).mp h2, beginAccept_raiseError_keysize]

/-! ## Interrupt (R184) -/

theorem irq_iff (s : State) : s.irq = true ↔ s.ie = true ∧ s.status.done = true := Bool.and_eq_true_iff

theorem irq_of_done_false {s : State} (h : s.status.done = false) : s.irq = false := by simp [State.irq, h]

theorem irq_of_ie_false {s : State} (h : s.ie = false) : s.irq = false := by simp [State.irq, h]

theorem engineTurn_finishing {s : State} (h : finishing s) : engineTurn s = s.finishStep Config.bc := by
  obtain ⟨hb, hp | ⟨hp, hi⟩⟩ := h
  · exact engineTurn_finish hb hp
  · exact engineTurn_lastBlock hb hp hi

theorem finishStep_irq (bc : BlockCipher) (s : State) : (s.finishStep bc).irq = s.ie := by
  have hie : (s.finishStep bc).ie = s.ie := (congrArg State.ie (finishStep_frame bc s) :)
  rw [State.irq, finishStep_done, hie, Bool.and_true]

/-- Settles O47: a running command's DONE is 0 by the invariant; a completion sets DONE and keeps IE; and a write of STATUS or
of CTRL clears the bit it names, DONE or IE. -/
theorem interruptFollowsDone : Obligations.InterruptFollowsDone := by
  unfold Obligations.InterruptFollowsDone
  refine ⟨irq_iff, fun s hinv hb => ?_, fun s hf => ?_, fun s t w rest hs hw => ?_⟩
  · obtain ⟨hdone, _⟩ := hinv.status.busy_clear hb
    exact irq_of_done_false hdone
  · rw [engineTurn_finishing hf, finishStep_irq]
  · rcases hw with ⟨hw, h1⟩ | ⟨hw, h0⟩
    · rw [step_writeStatus hw] at hs
      cases hs
      exact irq_of_done_false (by simp [Status.writeOneToClear, h1])
    · rw [step_writeCtrl hw] at hs
      cases hs
      exact irq_of_ie_false h0

/-! ## Acknowledge (R182) -/

theorem writeOneToClear_outcome (st : Status) {w : Word} (h1 : w.getLsbD 1 = true) (h2 : w.getLsbD 2 = true) :
    st.writeOneToClear w =
      { st with done := false, err := false, errcode := 0#4, ovr := if w.getLsbD 3 then false else st.ovr } := by
  rw [Status.writeOneToClear, h1, h2]
  cases w.getLsbD 3 <;> simp

/-- The start of an accept clears all that an error without a side effect left. -/
theorem failed_beginAccept (s : State) (code : BitVec 4) : (failed s code).beginAccept = s.beginAccept := rfl

/-- An accept reads nothing of a state but what its start leaves. -/
theorem exec_congr_beginAccept (i : Instr) {s t : State} (hs : s.status.busy = false) (ht : t.status.busy = false)
    (h : t.beginAccept = s.beginAccept) : exec i t = exec i s := by
  simp [exec_eq, acceptCommand, hs, ht, h]

/-- Settles O48: the STATUS write clears the outcome bits that its own bits name; and an accept begins by clearing the outcome,
which is all that an error left. -/
theorem errorsAreAcknowledged : Obligations.ErrorsAreAcknowledged := by
  unfold Obligations.ErrorsAreAcknowledged
  refine ⟨fun s w rest h h1 h2 => ?_, rfl, fun s i code hb => ?_⟩
  · rw [step_writeStatus h, writeOneToClear_outcome s.status h1 h2]
    exact ⟨_, rfl, irq_of_done_false rfl, rfl⟩
  · exact ⟨hb, exec_congr_beginAccept i hb hb (failed_beginAccept s code)⟩

end Sys2Proof.Proofs
end

section
/-! PROOF. Reset and hazards (70_reset_and_hazards.md): what the host finds after a reset, what each command does from there, and
which steps change KS. -/

namespace Sys2Proof.Proofs
open Sys2Proof.Machine Sys2Proof.Claims

/-! ## The registers after a reset (R190, R191) -/

/-- Of all registers ID alone is not 0 after reset (10_state.md R23, R35). -/
theorem readReg_reset (r : Reg) : readReg r State.reset = if r = .id then idValue else 0#32 := by
  cases r
  case pwd j | key j | ks j => exact Vector.getElem_replicate j.isLt
  all_goals rfl

/-- A reset in any state, a command running or not, leaves every register as the reset state has it. -/
theorem readReg_assertReset (r : Reg) (s : State) : readReg r s.assertReset = readReg r State.reset := by cases r <;> rfl

/-- ID is the last word of the window and no other (10_state.md R23). -/
theorem regAt_eq_id_iff {k : Nat} (hk : k < 64) : regAt k = .id ↔ k = 63 := by
  revert k; decide

theorem registerValue_assertReset (s : State) {k : Nat} (hk : k < 64) :
    registerValue s.assertReset (4 * k) = if k = 63 then idValue else 0#32 := by
  rw [registerValue_eq_readReg _ hk, readReg_assertReset, readReg_reset, if_congr (regAt_eq_id_iff hk) rfl rfl]

theorem step_reset {s : State} {rest : List Input} (h : s.inputs = .reset :: rest) :
    step s = .next ({ s with inputs := rest } : State).assertReset := step_cons h

/-- Settles O49: the step is the platform's reset, which gives the registers their reset values and writes no BUF byte. -/
theorem resetClearsRegistersAndKeepsBuf : Obligations.ResetClearsRegistersAndKeepsBuf := by
  unfold Obligations.ResetClearsRegistersAndKeepsBuf
  intro s rest h
  exact ⟨_, step_reset h, fun _ hk => registerValue_assertReset _ hk, rfl, rfl, readByte_congr rfl rfl, rfl, rfl⟩

/-! ## Every command from the reset state (R192) -/

/-- KEYBITS is 0 after reset, which is no key size. -/
theorem not_keyBitsLegal_reset : ¬ keyBitsLegal State.reset := (legalKeyBits_iff State.reset).not.mp (by decide)

theorem runOf_nop_reset : agree (runOf 1 .nop State.reset) (finished State.reset 0) := by
  rw [runOf_next 1 (exec_latch (i := .nop) rfl rfl)]
  exact latchNop_turns_agree State.reset

/-- The secrets ZERO clears are 0 after reset already. -/
theorem runOf_zero_reset : agree (runOf 1 .zero State.reset) (finished State.reset 0) := by
  obtain ⟨t, hexec, -, -, -, hend⟩ := zeroClearsTheSecrets.2 State.reset rfl
  rw [runOf_next 1 hexec]
  exact hend

/-- Settles O51: NOP and ZERO have no check, KEYBITS fails the check of KDF and SETKEY, and KEY_VALID fails the first check of the
keystream commands. -/
theorem everyCommandIsDefinedFromReset : Obligations.EveryCommandIsDefinedFromReset := by
  unfold Obligations.EveryCommandIsDefinedFromReset
  refine ⟨rfl, rfl, rfl, rfl, ?_, fun i hi => exec_keysize hi rfl not_keyBitsLegal_reset,
    fun i hi => exec_nokey hi rfl rfl⟩
  rintro i (rfl | rfl)
  · exact runOf_nop_reset
  · exact runOf_zero_reset

/-! ## Which steps change KS (R201) -/

@[simp] theorem frameStep_ks (s : State) : s.frameStep.ks = s.ks := by
  rcases frameStep_cases s with ⟨_, h⟩ | ⟨_, h⟩ | ⟨_, _, h⟩ <;> simp [h]

@[simp] theorem blockStep_ks (bc : BlockCipher) (s : State) : (s.blockStep bc).ks = s.ks := rfl

/-- No other finish action than KSGEN's and ZERO's writes KS (10_state.md R34). -/
theorem finishStep_ks (bc : BlockCipher) (s : State) :
    (s.finishStep bc).ks = s.ks ∨ s.seq.op = .ksgen ∨ s.seq.op = .zero := by
  rw [State.finishStep, complete_ks]
  cases s.seq.op
  case ksgen => exact .inr (.inl rfl)
  case zero => exact .inr (.inr rfl)
  all_goals exact .inl rfl

theorem engineTurn_ks (s : State) :
    (engineTurn s).ks = s.ks ∨ finishing s ∧ (s.seq.op = .ksgen ∨ s.seq.op = .zero) := by
  rcases engineTurn_cases s with ⟨_, h⟩ | ⟨_, _, h⟩ | ⟨_, _, _, h⟩ | ⟨hb, hp, h⟩ <;> rw [h]
  · exact .inl rfl
  · exact .inl (frameStep_ks s)
  · exact .inl (blockStep_ks Config.bc s)
  · exact (finishStep_ks Config.bc s).imp_right fun ho => ⟨⟨hb, hp⟩, ho⟩

theorem writeCmd_ks {w : Word} {s t : State} (h : writeCmd w s = .next t) : t.ks = s.ks := by
  rcases writeCmd_cases h with ⟨_, rfl⟩ | ⟨_, e, rfl⟩ | ⟨_, i, _, _, rfl⟩
  · rfl
  · simp
  · obtain ⟨q, _, hl⟩ := latchOf_eq i s.beginAccept
    simp [hl]

@[simp] theorem writeReg_ks (r : Reg) (w : Word) (s : State) : (writeReg r w s).ks = s.ks := by
  cases r <;> simp [writeReg, ifIdle, apply_ite]

@[simp] theorem writeBuf_ks (a : Nat) (bs : List Byte) (s : State) : (writeBuf a bs s).ks = s.ks := by
  unfold writeBuf ifIdle
  split <;> rfl

/-- KS is read-only to the host (10_state.md R34). -/
theorem hostAccess_ks {acc : BusAccess} {s t : State} (h : hostAccess acc s = .next t) : t.ks = s.ks := by
  rcases hostAccess_cases h with rfl | ⟨v, rfl⟩ | ⟨_, v, rfl⟩ | ⟨w, _, hw⟩ | ⟨k, w, _, _, _, rfl⟩ | ⟨a, bs, _, rfl⟩
  · rfl
  · rfl
  · rfl
  · exact (writeCmd_ks hw :)
  · rw [writeReg_ks]
  · rw [writeBuf_ks]

/-- Settles O55: by whose turn the step is. No host access writes KS, and of the engine's turns only the completion of a KSGEN or a
ZERO. -/
theorem keystreamRegistersChangeOnlyByKsgenZeroAndReset :
    Obligations.KeystreamRegistersChangeOnlyByKsgenZeroAndReset := by
  unfold Obligations.KeystreamRegistersChangeOnlyByKsgenZeroAndReset
  intro s t h hks
  rcases step_cases h with ⟨rest, hi, rfl⟩ | ⟨rest, hi, _⟩ | ⟨rest, hi, _⟩ | ⟨acc, rest, _, ha⟩
  · rcases engineTurn_ks { s with inputs := rest } with hkeep | ⟨hf, ho⟩
    · exact absurd hkeep hks
    · exact .inr ⟨rest, hi, hf, ho⟩
  · exact .inl (.inl ⟨rest, hi⟩)
  · exact .inl (.inr ⟨rest, hi⟩)
  · exact absurd (hostAccess_ks ha) hks

end Sys2Proof.Proofs
end

section
/-! PROOF. The machine's invariant (10_state.md R22, R24; 20_memory.md R67; 40_sequencer.md R107, R108): the reset state meets it and
every step keeps it. A host access while a command runs comes first, since what it cannot touch is what the invariant is about. -/

namespace Sys2Proof.Proofs
open Sys2Proof.Machine Sys2Proof.Claims

/-! ## The host while a command runs (R69, R107, R112, R113) -/

/-- While BUSY = 1 a register write is dropped, or is one of STATUS or CTRL. -/
theorem writeReg_running (r : Reg) (w : Word) {s : State} (hb : s.status.busy = true) :
    writeReg r w s = s ∨ writeReg r w s = s.acknowledge w ∨ writeReg r w s = { s with ie := w.getLsbD 0 } := by
  by_cases ho : isOperand r = true
  · exact .inl (writeReg_operand_busy ho w hb)
  · cases r
    case status => exact .inr (.inl rfl)
    case ctrl => exact .inr (.inr rfl)
    case cmd | progIdx | progCnt | ks j | id | reserved => exact .inl rfl
    all_goals exact absurd rfl ho

/-- While BUSY = 1 a host access moves IE, the data it returns, the draws and, of STATUS, what the host clears and OVR. -/
theorem hostAccess_running {acc : BusAccess} {s t : State} (hb : s.status.busy = true) (h : hostAccess acc s = .next t) :
    t = { s with hostData := t.hostData, draws := t.draws, ie := t.ie, status := t.status }
    ∧ (t.status = s.status ∨ t.status = { s.status with ovr := true } ∨ ∃ w, t.status = s.status.writeOneToClear w) := by
  rcases hostAccess_cases h with rfl | ⟨v, rfl⟩ | ⟨_, v, rfl⟩ | ⟨w, _, hw⟩ | ⟨k, w, _, _, _, rfl⟩ | ⟨a, bs, _, rfl⟩
  · exact ⟨rfl, .inl rfl⟩
  · exact ⟨rfl, .inl rfl⟩
  · exact ⟨rfl, .inl rfl⟩
  · rw [writeCmd_drop (s := { s with hostData := none }) hb] at hw
    cases hw
    exact ⟨rfl, .inr (.inl rfl)⟩
  · rcases writeReg_running (regAt k) w (s := { s with hostData := none }) hb with e | e | e <;> rw [e]
    · exact ⟨rfl, .inl rfl⟩
    · exact ⟨rfl, .inr (.inr ⟨w, rfl⟩)⟩
    · exact ⟨rfl, .inl rfl⟩
  · rw [writeBuf, ifIdle, if_pos hb]
    exact ⟨rfl, .inl rfl⟩

/-- Settles O58: the step is the access, and of what `hostAccess_running` lists only OVR and the bits a STATUS write clears are
in STATUS. -/
theorem hostCannotDisturbARunningCommand : Obligations.HostCannotDisturbARunningCommand := by
  unfold Obligations.HostCannotDisturbARunningCommand
  intro s t acc rest hi hb h
  rw [step_cons hi] at h
  obtain ⟨ht, hst⟩ := hostAccess_running (s := { s with inputs := rest }) hb h
  refine ⟨ht, ?_⟩
  rcases hst with e | e | ⟨w, e⟩ <;> rw [e]
  rfl

/-! ## STATUS (R24) -/

theorem statusInv_reset : StatusInv State.reset.status := ⟨by decide, by decide, by decide, by decide, by decide⟩

theorem statusInv_ovr {st : Status} (h : StatusInv st) : StatusInv { st with ovr := true } :=
  ⟨h.keyValid_iff, h.err_code, h.noErr_code, h.code_known, h.busy_clear⟩

/-- ERR and ERRCODE are kept together or cleared together. -/
theorem writeOneToClear_err_cases (st : Status) (w : Word) :
    ((st.writeOneToClear w).err = st.err ∧ (st.writeOneToClear w).errcode = st.errcode)
    ∨ ((st.writeOneToClear w).err = false ∧ (st.writeOneToClear w).errcode = 0#4) := by
  unfold Status.writeOneToClear
  cases w.getLsbD 2
  · exact .inl ⟨Bool.and_true _, rfl⟩
  · exact .inr ⟨Bool.and_false _, rfl⟩

theorem statusInv_writeOneToClear {st : Status} (h : StatusInv st) (w : Word) : StatusInv (st.writeOneToClear w) := by
  have hbusy : st.busy = true → (st.writeOneToClear w).done = false ∧ (st.writeOneToClear w).err = false := by
    intro hb
    obtain ⟨hdone, herr⟩ := h.busy_clear hb
    simp [Status.writeOneToClear, hdone, herr]
  rcases writeOneToClear_err_cases st w with ⟨herr, hcode⟩ | ⟨herr, hcode⟩
  · exact ⟨h.keyValid_iff, by rw [herr, hcode]; exact h.err_code, by rw [herr, hcode]; exact h.noErr_code,
      by rw [hcode]; exact h.code_known, hbusy⟩
  · exact ⟨h.keyValid_iff, by simp [herr], fun _ => hcode, by simp [hcode], hbusy⟩

theorem code_known (e : ErrCode) : e.code.toNat ≤ 6 := by cases e <;> decide

theorem statusInv_raiseError {s : State} (h : StatusInv s.status) (hb : s.status.busy = false) (e : ErrCode) :
    StatusInv (s.beginAccept.raiseError e).status := by
  refine ⟨?_, fun _ => ?_, fun he => ?_, ?_, fun hbusy => ?_⟩
  · by_cases hk : e = .keysize
    · simp [hk]
    · simpa [hk] using h.keyValid_iff
  · simpa using code_ne_zero e
  · simp at he
  · simpa using code_known e
  · simp [hb] at hbusy

theorem statusInv_accepted {s : State} (h : StatusInv s.status) (n : Nat) : StatusInv (accepted s n).status :=
  ⟨h.keyValid_iff, nofun, fun _ => rfl, Nat.zero_le _, fun _ => ⟨rfl, rfl⟩⟩

/-- KLEN's code of a legal key size (41_kdf.md R115). -/
theorem klenCode_wantedKeyLen {s : State} (h : keyBitsLegal s) :
    klenCode s.wantedKeyLen = if s.keybits = 128#32 then 1#2 else if s.keybits = 192#32 then 2#2 else 3#2 := by
  rcases h with h | h | h <;> simp [State.wantedKeyLen, h, klenCode]

theorem klenCode_wantedKeyLen_ne_zero {s : State} (h : keyBitsLegal s) : klenCode s.wantedKeyLen ≠ 0#2 := by
  rw [klenCode_wantedKeyLen h]
  split_ifs <;> decide

theorem writeReg_statusInv {s : State} (h : StatusInv s.status) (r : Reg) (w : Word) :
    StatusInv (writeReg r w s).status := by
  cases r
  case status => exact statusInv_writeOneToClear h w
  case key j =>
    simp only [writeReg, ifIdle]
    split
    · exact h
    · exact ⟨by simp, h.err_code, h.noErr_code, h.code_known, h.busy_clear⟩
  all_goals simpa [writeReg, ifIdle, apply_ite] using h

/-! ## A running command's latches (R107, R108) -/

/-- `t` is `s` but for STATUS, CTRL, PROG_IDX, NONCE, BUF and the model's own fields: the latches, and what they are compared
with, stand. -/
def sameRun (t s : State) : Prop :=
  t = { s with
    status := t.status, ie := t.ie, progIdx := t.progIdx, nonce0 := t.nonce0, nonce1 := t.nonce1, buf := t.buf
    hostData := t.hostData, inputs := t.inputs, draws := t.draws, powerUps := t.powerUps }

theorem blocksInv_congr {s t : State} (h : BlocksInv s) (ht : sameRun t s)
    (hk : t.status.keyValid = s.status.keyValid) : BlocksInv t := by
  have hseq : t.seq = s.seq := (congrArg State.seq ht :)
  have hcnt : t.progCnt = s.progCnt := (congrArg State.progCnt ht :)
  have hpar : t.params = s.params := (congrArg State.params ht :)
  obtain ⟨h1, h2, h3, h4, h5⟩ := h
  exact ⟨by rwa [hk], by rwa [hseq, hcnt], by rwa [hseq, hpar], by rwa [hseq, hpar], by rwa [hseq, hcnt]⟩

/-- PROG_IDX may move once the frame step is taken. -/
theorem runInv_congr {s t : State} (h : RunInv s) (ht : sameRun t s) (hk : t.status.keyValid = s.status.keyValid)
    (hidx : s.seq.phase = .frame → t.progIdx = s.progIdx) : RunInv t := by
  have hseq : t.seq = s.seq := (congrArg State.seq ht :)
  have hcnt : t.progCnt = s.progCnt := (congrArg State.progCnt ht :)
  have hkb : t.keybits = s.keybits := (congrArg State.keybits ht :)
  have hsrc : t.src = s.src := (congrArg State.src ht :)
  have hdst : t.dst = s.dst := (congrArg State.dst ht :)
  have hblocks : BlocksInv s → BlocksInv t := fun hB => blocksInv_congr hB ht hk
  have hphase : s.seq.phase = .frame ∧ s.progIdx = 0#32 ∨ s.seq.phase = .blocks →
      s.seq.phase = .frame ∧ t.progIdx = 0#32 ∨ s.seq.phase = .blocks :=
    Or.imp_left fun ⟨hf, h0⟩ => ⟨hf, (hidx hf).trans h0⟩
  unfold RunInv at h ⊢
  rw [hseq, hcnt, hkb, hk, hsrc, hdst]
  cases ho : s.seq.op <;> rw [ho] at h
  case nop | zero | kdf | setkey | ksgen => exact h
  case ctr => exact h.imp_right hblocks
  case ctre | ctrd =>
    obtain ⟨hp, hB, hfixed⟩ := h
    exact ⟨hphase hp, hblocks hB, hfixed⟩

/-- What a running command in its FRAME phase is. -/
theorem runInv_frame {s : State} (h : RunInv s) (hp : s.seq.phase = .frame) :
    BlocksInv s ∧ s.seq.b0 = 0#64
    ∧ (s.seq.op = .ctre ∧ s.seq.dst.toNat = s.dst.toNat + 8 ∨ s.seq.op = .ctrd ∧ s.seq.src.toNat = s.src.toNat + 8) := by
  unfold RunInv at h
  cases ho : s.seq.op <;> simp only [ho, hp, reduceCtorEq, false_and] at h
  case ctre =>
    obtain ⟨_, hB, h0, hout⟩ := h
    exact ⟨hB, h0, .inl ⟨rfl, hout⟩⟩
  case ctrd =>
    obtain ⟨_, hB, h0, hin⟩ := h
    exact ⟨hB, h0, .inr ⟨rfl, hin⟩⟩

/-- A running command in its BLOCKS phase has blocks. -/
theorem runInv_blocks {s : State} (h : RunInv s) (hp : s.seq.phase = .blocks) : BlocksInv s := by
  unfold RunInv at h
  cases ho : s.seq.op <;> simp only [ho, hp, reduceCtorEq, false_and] at h
  case ctr =>
    obtain ⟨_, hB⟩ := h
    exact hB
  case ctre | ctrd =>
    obtain ⟨_, hB, _⟩ := h
    exact hB

/-! ## BUF (20_memory.md R67) -/

theorem writeBytes_bound_lt {m : Memory} {a n : Nat} {bs : List Byte} (h : ∀ c ∈ m, c.1 < n) (hr : a + bs.length ≤ n) :
    ∀ c ∈ Memory.writeBytes m a bs, c.1 < n := by
  intro c hc
  rcases writeBytes_bound m a bs c hc with hc | hc
  · omega
  · exact h c hc

/-! ## The invariant over states that differ in little -/

/-- Nothing the invariant says reads IE, the data returned, the coming turns or the draws; and of STATUS a running command needs
KEY_VALID alone. -/
theorem inv_congr {s t : State} (h : Inv s)
    (ht : t = { s with status := t.status, ie := t.ie, hostData := t.hostData, inputs := t.inputs, draws := t.draws })
    (hst : StatusInv t.status) (hb : t.status.busy = true → s.status.busy = true)
    (hk : t.status.keyValid = s.status.keyValid) : Inv t := by
  have hsame : sameRun t s := by rw [sameRun, ht]
  refine ⟨hst, ?_, ?_, ?_, fun hbusy => runInv_congr (h.running (hb hbusy)) hsame hk fun _ => by rw [ht]⟩ <;> rw [ht]
  · exact h.progress
  · exact h.bufWf
  · exact h.bufBound

theorem inv_inputs {s : State} (h : Inv s) (rest : List Input) : Inv { s with inputs := rest } :=
  inv_congr h rfl h.status id rfl

theorem inv_hostData {s : State} (h : Inv s) (d : Option Word) : Inv { s with hostData := d } :=
  inv_congr h rfl h.status id rfl

/-! ## The engine's turns -/

theorem frameStep_inv {s : State} (h : Inv s) (hb : s.status.busy = true) (hp : s.seq.phase = .frame) :
    Inv s.frameStep := by
  obtain ⟨hB, h0, hop⟩ := runInv_frame (h.running hb) hp
  obtain ⟨hkey, hcount, hsrc, hdst, hindex⟩ := hB
  rcases frameStep_cases s with ⟨ho, e⟩ | ⟨ho, e⟩ | ⟨h1, h2, _⟩
  · have hout : s.seq.dst.toNat = s.dst.toNat + 8 := by simpa [ho] using hop
    have hrange : s.dst.toNat + s.nonceBytes.length ≤ s.params.bufBytes := by rw [nonceBytes_length]; omega
    rw [e]
    refine ⟨h.status, h.progress, writeBytes_keeps_wf _ _ _ h.bufWf, writeBytes_bound_lt h.bufBound hrange, fun _ => ?_⟩
    simp only [RunInv, ho]
    exact ⟨.inr trivial, ⟨hkey, hcount, hsrc, hdst, hindex⟩, h0, hout⟩
  · have hin : s.seq.src.toNat = s.src.toNat + 8 := by simpa [ho] using hop
    rw [e]
    refine ⟨h.status, h.progress, h.bufWf, h.bufBound, fun _ => ?_⟩
    simp only [RunInv, ho]
    exact ⟨.inr trivial, ⟨hkey, hcount, hsrc, hdst, hindex⟩, h0, hin⟩
  · simp [h1, h2] at hop

theorem progIdx_succ_toNat {s : State} (hi : s.progIdx.toNat < s.progCnt.toNat) :
    (s.progIdx + 1#32).toNat = s.progIdx.toNat + 1 := by
  have := s.progCnt.isLt
  rw [BitVec.toNat_add, BitVec.toNat_ofNat]
  omega

/-- The next block's input and output lie in the command's ranges. -/
theorem block_inRange {s : State} (h : BlocksInv s) (hi : s.progIdx.toNat < s.progCnt.toNat) :
    16 * s.progIdx.toNat + blockLen s.seq.len.toNat s.progCnt.toNat s.progIdx.toNat ≤ s.seq.len.toNat := by
  rw [h.count] at hi ⊢
  exact block_inside hi

/-- The bytes a block step writes. -/
def blockOutput (bc : BlockCipher) (s : State) : List Byte :=
  xorFold (s.memRead (s.seq.src.toNat + 16 * s.progIdx.toNat)
    (blockLen s.seq.len.toNat s.progCnt.toNat s.progIdx.toNat)) (s.keystreamBlock bc s.progIdx.toNat)

theorem blockOutput_length (bc : BlockCipher) (s : State) :
    (blockOutput bc s).length = blockLen s.seq.len.toNat s.progCnt.toNat s.progIdx.toNat := by
  rw [blockOutput, xorFold_length, memRead_length, Nat.min_eq_left (blockLen_le _ _ _)]

theorem blockStep_buf (bc : BlockCipher) (s : State) : (s.blockStep bc).buf =
    Memory.writeBytes s.buf (s.seq.dst.toNat + 16 * s.progIdx.toNat) (blockOutput bc s) := rfl

theorem blockStep_inv (bc : BlockCipher) {s : State} (h : Inv s) (hb : s.status.busy = true) (hp : s.seq.phase = .blocks)
    (hi : s.progIdx.toNat < s.progCnt.toNat) : Inv (s.blockStep bc) := by
  have hB := runInv_blocks (h.running hb) hp
  have hin := block_inRange hB hi
  have hdst := hB.dstRange
  have hrange : s.seq.dst.toNat + 16 * s.progIdx.toNat + (blockOutput bc s).length ≤ s.params.bufBytes := by
    rw [blockOutput_length]
    omega
  obtain ⟨_, hcnt⟩ := h.progress
  refine ⟨h.status, ⟨(progIdx_succ_toNat hi).trans_le hi, hcnt⟩, ?_, ?_,
    fun _ => runInv_congr (h.running hb) rfl rfl fun hf => by simp [hp] at hf⟩ <;> rw [blockStep_buf]
  · exact writeBytes_keeps_wf _ _ _ h.bufWf
  · exact writeBytes_bound_lt h.bufBound hrange

/-- KDF and SETKEY leave a legal size's KLEN with KEY_VALID, ZERO neither; no other finish action writes them. -/
theorem finishOp_keyValid_iff (bc : BlockCipher) {s : State} (h : StatusInv s.status) (hr : RunInv s) :
    (finishOp bc s.seq.op s).status.keyValid = true ↔ (finishOp bc s.seq.op s).status.klen ≠ 0#2 := by
  unfold RunInv at hr
  cases ho : s.seq.op <;> rw [ho] at hr
  case kdf | setkey =>
    obtain ⟨_, _, hl⟩ := hr
    exact iff_of_true rfl (klenCode_wantedKeyLen_ne_zero ((legalKeyBits_iff s).mp hl))
  case zero => exact iff_of_false Bool.false_ne_true (not_not_intro rfl)
  all_goals exact h.keyValid_iff

theorem finishStep_inv (bc : BlockCipher) {s : State} (h : Inv s) (hb : s.status.busy = true) : Inv (s.finishStep bc) := by
  have hstatus : StatusInv (s.finishStep bc).status := by
    have hk : (s.finishStep bc).status.keyValid = true ↔ (s.finishStep bc).status.klen ≠ 0#2 :=
      finishOp_keyValid_iff bc h.status (h.running hb)
    rw [finishStep_status]
    exact ⟨hk, h.status.err_code, h.status.noErr_code, h.status.code_known, nofun⟩
  refine ⟨hstatus, ?_, ?_, ?_, fun hbusy => by simp at hbusy⟩ <;> rw [finishStep_frame]
  · exact h.progress
  · exact h.bufWf
  · exact h.bufBound

theorem engineTurn_inv {s : State} (h : Inv s) : Inv (engineTurn s) := by
  rcases engineTurn_cases s with ⟨_, e⟩ | ⟨hb, hp, e⟩ | ⟨hb, hp, hi, e⟩ | ⟨hb, _, e⟩ <;> rw [e]
  · exact h
  · exact frameStep_inv h hb hp
  · exact blockStep_inv Config.bc h hb hp hi
  · exact finishStep_inv Config.bc h hb

/-! ## Accept (R106, R107) -/

theorem raiseError_inv {s : State} (h : Inv s) (hb : s.status.busy = false) (e : ErrCode) :
    Inv (s.beginAccept.raiseError e) := by
  refine ⟨statusInv_raiseError h.status hb e, by simp, ?_, ?_, fun hbusy => by simp [hb] at hbusy⟩
  · simpa using h.bufWf
  · simpa using h.bufBound

theorem latch_blocksInv {s : State} {q : Latches} (hk : s.status.keyValid = true)
    (hsrc : q.src.toNat + q.len.toNat ≤ s.params.bufBytes) (hdst : q.dst.toNat + q.len.toNat ≤ s.params.bufBytes)
    (hindex : q.b0.toNat + blockCount q.len.toNat ≤ 2 ^ 64) : BlocksInv (s.latch q (blockCount q.len.toNat)) := by
  have hcnt : (s.latch q (blockCount q.len.toNat)).progCnt.toNat = blockCount q.len.toNat :=
    ofNat_blockCount_toNat q.len.isLt
  exact ⟨hk, hcnt, hsrc, hdst, by rw [hcnt]; exact hindex⟩

theorem zero_add_blockCount_le (w : Word) : (0#64).toNat + blockCount w.toNat ≤ 2 ^ 64 := by
  have := blockCount_lt w.isLt
  simp only [BitVec.toNat_ofNat]
  omega

theorem sub_eight_toNat {w : Word} (h : 8 ≤ w.toNat) : (w - 8#32).toNat = w.toNat - 8 := BitVec.toNat_sub_of_le h

theorem latchCtr_runInv {s : State} (h : checkCtr s = none) : RunInv (latchCtr Config.bc s) := by
  obtain ⟨hk, ⟨hsrc, hdst⟩, hn⟩ := checkCtr_none.mp h
  have hctr := ctr64_lt s
  have hindex : (s.ctrHi ++ s.ctrLo).toNat + blockCount s.len.toNat ≤ 2 ^ 64 := by
    rw [ctrHi_append_ctrLo_toNat]
    omega
  exact ⟨rfl, latch_blocksInv hk hsrc hdst hindex⟩

theorem latchCtre_runInv {s : State} (h : checkCtre s = none) : RunInv (latchCtre Config.bc s) := by
  obtain ⟨hk, hsrc, hdst⟩ := checkCtre_none.mp h
  have hout : (s.dst + 8#32).toNat = s.dst.toNat + 8 := add_eight_toNat (s := s) (by unfold fits; omega)
  exact ⟨.inl ⟨rfl, rfl⟩, latch_blocksInv hk hsrc (by simp only; omega) (zero_add_blockCount_le _), rfl, hout⟩

theorem latchCtrd_runInv {s : State} (h : checkCtrd s = none) : RunInv (latchCtrd Config.bc s) := by
  obtain ⟨hk, h8, hsrc, hdst⟩ := checkCtrd_none.mp h
  have hin : (s.src + 8#32).toNat = s.src.toNat + 8 := add_eight_toNat (s := s) (by unfold fits; omega)
  have hlen := sub_eight_toNat h8
  refine ⟨.inl ⟨rfl, rfl⟩, ?_, rfl, hin⟩
  rw [latchCtrd, ← hlen]
  exact latch_blocksInv hk (by simp only; omega) (by simp only; omega) (zero_add_blockCount_le _)

/-- SETKEY's check is KDF's (R115). -/
theorem legalKeyBits_of_checkKdf {s : State} (h : checkKdf s = none) : legalKeyBits s.keybits = true := by
  simpa [checkKdf] using h

/-- A command's latches are as its rule says when its checks pass. -/
theorem latchOf_runInv {i : Instr} {s : State} (h : checkOf i s = none) : RunInv (latchOf i s) := by
  cases i
  case nop | zero => exact ⟨rfl, rfl⟩
  case kdf | setkey => exact ⟨rfl, rfl, legalKeyBits_of_checkKdf h⟩
  case ksgen => exact ⟨rfl, rfl, checkKsgen_none.mp h⟩
  case ctr => exact latchCtr_runInv h
  case ctre => exact latchCtre_runInv h
  case ctrd => exact latchCtrd_runInv h

theorem countOf_le (i : Instr) (s : State) : countOf i s ≤ 2 ^ 28 := by
  have h1 := blockCount_lt s.len.isLt
  have h2 := blockCount_lt (Nat.lt_of_le_of_lt (Nat.sub_le s.len.toNat 8) s.len.isLt)
  cases i
  case ctr | ctre => exact h1
  case ctrd => exact h2
  all_goals exact Nat.zero_le _

theorem latchOf_inv {i : Instr} {s : State} (h : Inv s) (hc : checkOf i s.beginAccept = none) :
    Inv (latchOf i s.beginAccept) := by
  have hcnt := countOf_le i s
  refine ⟨?_, ?_, ?_, ?_, fun _ => latchOf_runInv hc⟩
  · rw [latchOf_beginAccept_status]
    exact statusInv_accepted h.status 0
  all_goals rw [latchOf_beginAccept_agree i s]
  · simp only [accepted, BitVec.toNat_ofNat]
    omega
  · exact h.bufWf
  · exact h.bufBound

theorem writeCmd_inv {w : Word} {s t : State} (h : Inv s) (hw : writeCmd w s = .next t) : Inv t := by
  rcases writeCmd_cases hw with ⟨_, rfl⟩ | ⟨hb, e, rfl⟩ | ⟨_, i, _, hc, rfl⟩
  · exact inv_congr h rfl (statusInv_ovr h.status) id rfl
  · exact raiseError_inv h hb e
  · exact latchOf_inv h hc

/-! ## The host's other accesses -/

/-- What no register write moves. -/
theorem writeReg_frame (r : Reg) (w : Word) (s : State) :
    (writeReg r w s).params = s.params ∧ (writeReg r w s).progIdx = s.progIdx ∧ (writeReg r w s).progCnt = s.progCnt
    ∧ (writeReg r w s).buf = s.buf := by
  cases r <;> simp [writeReg, ifIdle, apply_ite]

/-- While BUSY = 0 no latch has to fit the operand registers. -/
theorem writeReg_inv_idle {s : State} (h : Inv s) (hb : s.status.busy = false) (r : Reg) (w : Word) :
    Inv (writeReg r w s) := by
  obtain ⟨hpar, hidx, hcnt, hbuf⟩ := writeReg_frame r w s
  refine ⟨writeReg_statusInv h.status r w, ?_, ?_, ?_, fun hbusy => ?_⟩
  · rw [hidx, hcnt]
    exact h.progress
  · rw [hbuf]
    exact h.bufWf
  · rw [hbuf, hpar]
    exact h.bufBound
  · rw [writeReg_busy, hb] at hbusy
    cases hbusy

theorem writeBuf_inv_idle {s : State} (h : Inv s) (hb : s.status.busy = false) {a : Nat} {bs : List Byte}
    (hr : a + bs.length ≤ s.params.bufBytes) : Inv (writeBuf a bs s) := by
  rw [writeBuf, ifIdle, if_neg (by simp [hb])]
  refine ⟨h.status, h.progress, writeBytes_keeps_wf _ _ _ h.bufWf, writeBytes_bound_lt h.bufBound hr, fun hbusy => ?_⟩
  rw [memWrite_status, hb] at hbusy
  cases hbusy

theorem hostAccess_inv_running {acc : BusAccess} {s t : State} (h : Inv s) (hb : s.status.busy = true)
    (ha : hostAccess acc s = .next t) : Inv t := by
  obtain ⟨ht, hst⟩ := hostAccess_running hb ha
  have hinputs : t.inputs = s.inputs := (congrArg State.inputs ht :)
  refine inv_congr h (by rw [hinputs]; exact ht) ?_ (fun _ => hb) ?_
  · rcases hst with e | e | ⟨w, e⟩ <;> rw [e]
    · exact h.status
    · exact statusInv_ovr h.status
    · exact statusInv_writeOneToClear h.status w
  · rcases hst with e | e | ⟨w, e⟩ <;> rw [e]
    rfl

theorem hostAccess_inv {acc : BusAccess} {s t : State} (h : Inv s) (ha : hostAccess acc s = .next t) : Inv t := by
  cases hb : s.status.busy with
  | true => exact hostAccess_inv_running h hb ha
  | false =>
    rcases hostAccess_cases ha with rfl | ⟨v, rfl⟩ | ⟨_, v, rfl⟩ | ⟨w, _, hw⟩ | ⟨k, w, _, _, _, rfl⟩ | ⟨a, bs, hr, rfl⟩
    · exact inv_hostData h none
    · exact inv_hostData h (some v)
    · exact inv_congr h rfl h.status id rfl
    · exact writeCmd_inv (inv_hostData h none) hw
    · exact writeReg_inv_idle (inv_hostData h none) hb _ w
    · exact writeBuf_inv_idle (inv_hostData h none) hb hr

/-! ## Every step -/

theorem assertReset_inv {s : State} (h : Inv s) : Inv s.assertReset :=
  ⟨statusInv_reset, ⟨Nat.le_refl 0, Nat.zero_le _⟩, h.bufWf, h.bufBound, nofun⟩

theorem powerUp_inv (s : State) : Inv s.powerUp :=
  ⟨statusInv_reset, ⟨Nat.le_refl 0, Nat.zero_le _⟩, .nil, nofun, nofun⟩

/-- Settles O52: no command runs after reset, no outcome is recorded and no BUF byte is written. -/
theorem resetStateMeetsTheInvariant : Obligations.ResetStateMeetsTheInvariant := by
  unfold Obligations.ResetStateMeetsTheInvariant
  exact ⟨statusInv_reset, ⟨Nat.le_refl 0, Nat.zero_le _⟩, .nil, nofun, nofun⟩

/-- Settles O53: by whose turn the step is; the invariant does not see the coming turns. -/
theorem everyStepKeepsTheInvariant : Obligations.EveryStepKeepsTheInvariant := by
  unfold Obligations.EveryStepKeepsTheInvariant
  intro s t h hs
  rcases step_cases hs with ⟨rest, _, rfl⟩ | ⟨rest, _, rfl⟩ | ⟨rest, _, rfl⟩ | ⟨acc, rest, _, ha⟩
  · exact engineTurn_inv (inv_inputs h rest)
  · exact assertReset_inv (inv_inputs h rest)
  · exact powerUp_inv _
  · exact hostAccess_inv (inv_inputs h rest) ha

end Sys2Proof.Proofs
end

section
/-! PROOF. The commands' accepts and the commands without blocks (40_sequencer.md R106, R107; 41_kdf.md R118, R120; 43_keystream.md
R145, R147, R149, R151): what an accept moves, what it latches, and what KDF, SETKEY and KSGEN leave. -/

namespace Sys2Proof.Proofs
open Sys2Proof.Machine Sys2Proof.Claims

/-! ## What an accept moves (R106, R107) -/

/-- `t` is `s` but for STATUS, the progress registers, the latches and the draws. -/
def acceptFrame (t s : State) : Prop :=
  t = { s with status := t.status, progIdx := t.progIdx, progCnt := t.progCnt, seq := t.seq, draws := t.draws }

theorem raiseError_acceptFrame (s : State) (e : ErrCode) : acceptFrame (s.beginAccept.raiseError e) s := by
  cases e <;> rfl

theorem latchOf_acceptFrame (i : Instr) (s : State) : acceptFrame (latchOf i s.beginAccept) s := by
  cases i <;> rfl

/-- Settles O13: dropped, refused or latched, a command's write moves only what `acceptFrame` lists; KEY_VALID and KLEN move with
an error alone. -/
theorem acceptChangesOnlyOutcomeProgressAndLatches : Obligations.AcceptChangesOnlyOutcomeProgressAndLatches := by
  unfold Obligations.AcceptChangesOnlyOutcomeProgressAndLatches
  intro i s
  obtain ⟨t, ht⟩ := exec_next i s
  refine ⟨t, ht, ?_⟩
  rcases exec_cases ht with ⟨_, rfl⟩ | ⟨_, e, _, rfl⟩ | ⟨_, _, rfl⟩
  · exact ⟨rfl, fun _ => ⟨rfl, rfl⟩⟩
  · exact ⟨raiseError_acceptFrame s e, fun he => by simp at he⟩
  · refine ⟨latchOf_acceptFrame i s, fun _ => ?_⟩
    rw [latchOf_beginAccept_status]
    exact ⟨rfl, rfl⟩

/-! ## SETKEY and KDF (41_kdf.md R118, R120) -/

theorem checkSetkey_none {s : State} (h : keyBitsLegal s) : checkSetkey s = none := if_pos ((legalKeyBits_iff s).mpr h)

/-- Settles O16: a legal size passes SETKEY's one check; its first phase is FINISH, so the next engine turn is its finish action and
its completion. -/
theorem setkeyValidatesTheKey : Obligations.SetkeyValidatesTheKey := by
  unfold Obligations.SetkeyValidatesTheKey
  intro s hb hs
  refine ⟨latchSetkey s.beginAccept, exec_latch hb (checkSetkey_none hs), latchOf_beginAccept_agree .setkey s, rfl, rfl, ?_⟩
  rw [latchSetkey, turns_one_latch_finish _ _ rfl, ← klenCode_wantedKeyLen hs]
  rfl

/-- The statement's intermediate key is the model's (R117). -/
theorem intermediateKey_getD (s : State) (kl k : Nat) :
    (intermediateKey Config.bc s.params.kdfSchedSrc kl (s.passwordByte kl)).toList.getD k 0#8 = intermediateByte s kl k := by
  have hp : s.passwordByte kl = passwordBlock s kl := rfl
  unfold intermediateKey intermediateByte kdfSchedule
  rw [hp]
  cases s.params.kdfSchedSrc <;> rfl

/-- The derived key as R116 to R118 say it: `T` read round and round below the key length, 0 above it. -/
theorem derivedKeyByte_eq {s : State} (hs : keyBitsLegal s) (k : Nat) : derivedKeyByte Config.bc s k =
    if k < s.wantedKeyLen then intermediateByte s s.wantedKeyLen (k % 16) else 0#8 := by
  by_cases hk : k < s.wantedKeyLen
  · rw [if_pos hk, derivedKeyByte_of_lt _ hs hk, intermediateKey_getD]
  · rw [if_neg hk]
    exact if_neg hk

/-- Settles O15: a KDF with a legal size is its accept, then its finish action; KEY is then the file of derived bytes. -/
theorem kdfDerivesTheKey : Obligations.KdfDerivesTheKey := by
  unfold Obligations.KdfDerivesTheKey
  intro s hb hs
  have hexec : exec .kdf s = .next (latchKdf s.beginAccept) := exec_latch hb (checkKdf_none hs)
  refine ⟨_, _, hexec, latchOf_beginAccept_agree .kdf s, rfl, rfl, rfl, ?_, fun k hk => ?_⟩
  · rw [← runOf_next 1 hexec, runOf_kdf hb hs, ← klenCode_wantedKeyLen hs]
    rfl
  · rw [← runOf_next 1 hexec, runOf_kdf_keyByte hb hs hk, derivedKeyByte_eq hs, State.wantedKeyLen]

/-! ## KSGEN (43_keystream.md R151) -/

/-- A latched KSGEN's one keystream block is that of index CTR64. -/
theorem latchKsgen_keystream (s : State) {k : Nat} (hk : k < 16) :
    ((latchKsgen Config.bc s.beginAccept).keystreamBlock Config.bc 0).toList.getD k 0#8
      = keystreamByte s s.nonceBytes s.ctr64 k := by
  rw [keystreamByte, Nat.div_eq_of_lt hk, Nat.mod_eq_of_lt hk, ← ctrHi_append_ctrLo_toNat s]
  rfl

/-- Settles O18: with a key KSGEN has no other check; its next engine turn writes the keystream block of its latches to KS. -/
theorem ksgenWritesOneKeystreamBlock : Obligations.KsgenWritesOneKeystreamBlock := by
  unfold Obligations.KsgenWritesOneKeystreamBlock
  intro s hb hk
  have hturn : turns 1 (latchKsgen Config.bc s.beginAccept)
      = (finishKsgen Config.bc (latchKsgen Config.bc s.beginAccept)).complete := turns_one_latch_finish _ _ rfl
  refine ⟨latchKsgen Config.bc s.beginAccept, _, exec_latch hb (checkKsgen_none.mpr hk), latchOf_beginAccept_agree .ksgen s,
    rfl, rfl, rfl, ?_, fun k hk16 => ?_⟩ <;> rw [hturn]
  · rfl
  · rw [← latchKsgen_keystream s hk16]
    exact wordByte_fileOfBytes (n := 4) _ k hk16

/-! ## What CTR, CTRE and CTRD latch (R145, R147, R149) -/

theorem ctrHi_append_ctrLo (s : State) : s.ctrHi ++ s.ctrLo = BitVec.ofNat 64 s.ctr64 := by
  rw [← ctrHi_append_ctrLo_toNat, BitVec.ofNat_toNat, BitVec.setWidth_eq]

theorem add_eight_eq_ofNat (w : Word) : w + 8#32 = BitVec.ofNat 32 (w.toNat + 8) := by simp [BitVec.ofNat_add]

theorem sub_eight_eq_ofNat {w : Word} (h : 8 ≤ w.toNat) : w - 8#32 = BitVec.ofNat 32 (w.toNat - 8) := by
  rw [← sub_eight_toNat h, BitVec.ofNat_toNat, BitVec.setWidth_eq]

/-- Settles O19: when the checks pass an idle accept latches, and each command's latch names these values. -/
theorem keystreamCommandsLatchTheirOperands : Obligations.KeystreamCommandsLatchTheirOperands := by
  unfold Obligations.KeystreamCommandsLatchTheirOperands
  refine ⟨fun s hb hk hsrc hdst hn => ?_, fun s hb hk hsrc hdst => ?_, fun s hb hk h8 hsrc hdst => ?_⟩
  · refine ⟨_, exec_latch (i := .ctr) hb (checkCtr_none.mpr ⟨hk, ⟨hsrc, hdst⟩, hn⟩), latchOf_beginAccept_agree .ctr s, ?_⟩
    rw [← ctrHi_append_ctrLo]
    rfl
  · refine ⟨_, exec_latch (i := .ctre) hb (checkCtre_none.mpr ⟨hk, hsrc, hdst⟩), latchOf_beginAccept_agree .ctre s, ?_⟩
    rw [← add_eight_eq_ofNat]
    rfl
  · refine ⟨_, exec_latch (i := .ctrd) hb (checkCtrd_none.mpr ⟨hk, h8, hsrc, hdst⟩), latchOf_beginAccept_agree .ctrd s, ?_⟩
    rw [← add_eight_eq_ofNat, ← sub_eight_eq_ofNat h8]
    rfl

/-- Settles O10: with a key, the length check is CTRD's next. -/
theorem shortFrameRaisesMalformed : Obligations.ShortFrameRaisesMalformed := by
  unfold Obligations.ShortFrameRaisesMalformed
  intro s hb hk h8
  have hcheck : checkCtrd s = some .malformed := by
    rw [checkCtrd, if_neg (by simp [State.noKey, hk]), if_pos h8]
  rw [exec_error (i := .ctrd) hb hcheck, beginAccept_raiseError (by decide)]
  rfl

end Sys2Proof.Proofs
end

section
/-! PROOF. The engine's steps (40_sequencer.md R108; 20_memory.md R67; 43_keystream.md R141, R147, R149): what a frame step moves,
which BUF bytes a step may change, and that every access lies inside BUF. -/

namespace Sys2Proof.Proofs
open Sys2Proof.Machine Sys2Proof.Claims

/-! ## Frame steps (R147, R149) -/

theorem frameStep_ctre {s : State} (ho : s.seq.op = .ctre) : s.frameStep =
    { s.memWrite s.dst.toNat s.nonceBytes with seq := { s.seq with phase := .blocks } } := by
  simpa [ho] using frameStep_cases s

theorem frameStep_ctrd {s : State} (ho : s.seq.op = .ctrd) : s.frameStep =
    { s with
      nonce0 := fromLe32 (s.memRead s.src.toNat 4)
      nonce1 := fromLe32 (s.memRead (s.src.toNat + 4) 4)
      seq := { s.seq with phase := .blocks } } := by
  simpa [ho] using frameStep_cases s

theorem frameStep_ctre_readByte {s : State} (ho : s.seq.op = .ctre) (a : Nat) : s.frameStep.readByte a =
    if s.dst.toNat ≤ a ∧ a < s.dst.toNat + 8 then s.nonceBytes.getD (a - s.dst.toNat) 0#8 else s.readByte a := by
  rw [frameStep_ctre ho]
  exact readByte_memWrite s s.dst.toNat a s.nonceBytes

/-- Of the frame steps CTRE's alone writes BUF. -/
theorem frameStep_readByte_of_ne_ctre {s : State} (ho : s.seq.op ≠ .ctre) (a : Nat) :
    s.frameStep.readByte a = s.readByte a := by
  rcases frameStep_cases s with ⟨hc, _⟩ | ⟨_, e⟩ | ⟨_, _, e⟩
  · exact absurd hc ho
  · rw [e]; rfl
  · rw [e]; rfl

/-- NONCE loaded from BUF is the 8 bytes there (10_state.md R31, R36). -/
theorem frameStep_ctrd_nonceBytes {s : State} (ho : s.seq.op = .ctrd) :
    s.frameStep.nonceBytes = (List.range 8).map fun k => s.readByte (s.src.toNat + k) := by
  have hload : s.frameStep.nonceBytes
      = le32 (fromLe32 (s.memRead s.src.toNat 4)) ++ le32 (fromLe32 (s.memRead (s.src.toNat + 4) 4)) := by
    rw [frameStep_ctrd ho]
    rfl
  rw [hload, le32_fromLe32_memRead, le32_fromLe32_memRead]
  simp [State.memRead, List.range_succ, Nat.add_assoc]

/-- Settles O24: the turn is the frame step, which for CTRE is a write of the nonce and for CTRD a load of it. -/
theorem frameStepsMoveTheNonce : Obligations.FrameStepsMoveTheNonce := by
  unfold Obligations.FrameStepsMoveTheNonce
  refine ⟨fun s hb hp ho => ⟨_, engineTurn_frame hb hp, ?_, frameStep_ctre_readByte ho⟩,
    fun s hb hp ho => ⟨_, engineTurn_frame hb hp, ?_, frameStep_ctrd_nonceBytes ho⟩⟩
  · rw [frameStep_ctre ho]
    rfl
  · rw [frameStep_ctrd ho]

/-! ## Which BUF bytes a step may change (R146 (b), R67) -/

theorem finishStep_readByte (bc : BlockCipher) (s : State) (a : Nat) : (s.finishStep bc).readByte a = s.readByte a := by
  rw [finishStep_frame]
  rfl

/-- Settles O27: by the kind of turn. Only a block step and CTRE's frame step write BUF, each one range; and a block lies inside the
message. -/
theorem engineStepWritesOnlyItsOutput : Obligations.EngineStepWritesOnlyItsOutput := by
  unfold Obligations.EngineStepWritesOnlyItsOutput
  intro s a hne
  rcases engineTurn_cases s with ⟨_, e⟩ | ⟨hb, hp, e⟩ | ⟨hb, hp, hi, e⟩ | ⟨_, _, e⟩ <;> rw [e] at hne
  · exact absurd rfl hne
  · by_cases ho : s.seq.op = .ctre
    · rw [frameStep_ctre_readByte ho, ite_ne_right_iff] at hne
      exact .inr ⟨hb, hp, ho, hne.1⟩
    · exact absurd (frameStep_readByte_of_ne_ctre ho a) hne
  · rw [blockStep_readByte, ite_ne_right_iff] at hne
    obtain ⟨⟨hlow, hhigh⟩, _⟩ := hne
    have hlen := blockLen_le s.seq.len.toNat s.progCnt.toNat s.progIdx.toNat
    refine .inl ⟨⟨hb, hp, hi⟩, hlow, by omega, fun hinv => ?_⟩
    have hin := block_inRange (runInv_blocks (hinv.running hb) hp) hi
    omega
  · exact absurd (finishStep_readByte Config.bc s a) hne

/-- Settles O28: a block lies inside the message, whose ranges the latches keep inside BUF; the frame's 8 bytes end where a latched
range begins. -/
theorem engineAccessesStayInsideBuf : Obligations.EngineAccessesStayInsideBuf := by
  unfold Obligations.EngineAccessesStayInsideBuf
  refine fun s hinv => ⟨fun ⟨hb, hp, hi⟩ => ?_, fun hb hp => ?_⟩
  · have hB := runInv_blocks (hinv.running hb) hp
    have hin := block_inRange hB hi
    have hsrc := hB.srcRange
    have hdst := hB.dstRange
    omega
  · obtain ⟨hB, _, hop⟩ := runInv_frame (hinv.running hb) hp
    have hsrc := hB.srcRange
    have hdst := hB.dstRange
    refine ⟨fun ho => ?_, fun ho => ?_⟩ <;> simp [ho] at hop <;> omega

end Sys2Proof.Proofs
end

section
/-! PROOF. The counter's arithmetic and CTR over CTR (42_counter.md R131, R132, R134; 43_keystream.md R146): counter blocks and block
lengths, CTR twice, and CTR in two segments. -/

namespace Sys2Proof.Proofs
open Sys2Proof.Machine Sys2Proof.Claims

/-! ## Counter blocks (R134 (a)) -/

/-- A counter block determines its bytes. -/
theorem counterBytes_eq_of_counterBlock_eq {o : ByteOrder} {n : List Byte} {b c : Nat} (hn : n.length = 8)
    (h : counterBlock o n b = counterBlock o n c) : counterBytes o n b = counterBytes o n c := by
  have hlen : ∀ x, (counterBytes o n x).length = 16 := fun x => by simp [counterBytes, hn]
  refine List.ext_getElem (by rw [hlen, hlen]) fun j hb hc => ?_
  have hj : j < 16 := hlen b ▸ hb
  have hbyte := congrArg (fun v : Block => v[j]) h
  simpa [counterBlock, List.getD_eq_getElem?_getD, List.getElem?_eq_getElem hb, List.getElem?_eq_getElem hc] using hbyte

/-- Settles O30: the halves of the index are encoded one after the other, and each encoding determines its word. -/
theorem counterBlocksAreDistinct : Obligations.CounterBlocksAreDistinct := by
  unfold Obligations.CounterBlocksAreDistinct
  intro o n b c hn hb hc h
  have hbytes := counterBytes_eq_of_counterBlock_eq hn h
  unfold counterBytes at hbytes
  obtain ⟨hleft, hlo⟩ := List.append_inj hbytes (by simp)
  obtain ⟨_, hhi⟩ := List.append_inj hleft rfl
  rw [← indexHi_indexLo_toNat hb, ← indexHi_indexLo_toNat hc, enc32_injective o _ _ hhi, enc32_injective o _ _ hlo]

/-! ## Block lengths (R131, R132) -/

/-- The first `j` blocks are the first `16 j` bytes, as far as the message goes. -/
theorem sum_blockLen (l j : Nat) (hj : j ≤ blockCount l) :
    ((List.range j).map (blockLen l (blockCount l))).sum = min (16 * j) l := by
  induction j with
  | zero => simp
  | succ j ih =>
    have hlast := block_inside_eq (l := l) hj
    rw [List.range_succ, List.map_append, List.sum_append, ih (by omega)]
    simp only [List.map_cons, List.map_nil, List.sum_cons, List.sum_nil]
    omega

/-- Settles O32: the two cases of a block's length, and the sum over all blocks. -/
theorem blockLengthsCoverTheMessage : Obligations.BlockLengthsCoverTheMessage := by
  unfold Obligations.BlockLengthsCoverTheMessage
  refine ⟨rfl, fun l hl => ⟨fun i hi => if_pos hi, if_neg ?_, ?_⟩⟩
  · omega
  · rw [sum_blockLen l _ (Nat.le_refl _)]
    unfold blockCount
    omega

/-! ## A whole CTR as one function of the state (R130, R145) -/

/-- `t` is idle and has what a keystream depends on, the parameters, the live key and the nonce, in common with `s`. -/
structure SameSetting (t s : State) : Prop where
  idle     : t.status.busy = false
  params   : t.params = s.params
  keyValid : t.status.keyValid = s.status.keyValid
  liveKey  : t.liveKey = s.liveKey
  nonce    : t.nonceBytes = s.nonceBytes

theorem SameSetting.refl {s : State} (hb : s.status.busy = false) : SameSetting s s := ⟨hb, rfl, rfl, rfl, rfl⟩

theorem SameSetting.fits_iff {s t : State} (h : SameSetting t s) (a n : Nat) : fits t a n ↔ fits s a n := by
  rw [fits, fits, h.params]

theorem SameSetting.keystream {s t : State} (h : SameSetting t s) (b0 j : Nat) :
    keystreamByte t t.nonceBytes b0 j = keystreamByte s s.nonceBytes b0 j := by
  rw [h.nonce, keystreamByte_congr (congrArg Params.ctrByteOrder h.params) h.liveKey]

theorem SameSetting.of_agree_finished {s t u : State} {n : Nat} {b : Memory} {lo hi : Word} (h : SameSetting t s)
    (hu : agree u { finished t n with buf := b, ctrLo := lo, ctrHi := hi }) : SameSetting u s :=
  ⟨(congrArg (·.status.busy) hu :), (congrArg State.params hu :).trans h.params,
    (congrArg (·.status.keyValid) hu :).trans h.keyValid, (congrArg State.liveKey hu :).trans h.liveKey,
    (congrArg State.nonceBytes hu :).trans h.nonce⟩

/-- What a CTR of `l` bytes from `a` to `b` with first index `c` leaves, its checks passing: the setting stands, CTR64 is advanced,
of BUF only the output range has moved, and in an exact layout (R144) it holds the transformed input. -/
theorem runOf_ctr {s t u : State} {a b l c : Nat} (hset : SameSetting t s) (hk : s.status.keyValid = true)
    (hsrc : t.src.toNat = a) (hdst : t.dst.toNat = b) (hlen : t.len.toNat = l) (hctr : t.ctr64 = c)
    (hin : fits s a l) (hout : fits s b l) (hn : blockCount l = 0 ∨ c + blockCount l - 1 < 2 ^ 64)
    (hu : u = runOf (blockCount l + 1) .ctr t) :
    SameSetting u s ∧ u.len = t.len
    ∧ (u.ctrLo = BitVec.ofNat 32 (c + blockCount l) ∧ u.ctrHi = BitVec.ofNat 32 ((c + blockCount l) / 2 ^ 32))
    ∧ (∀ x, ¬ (b ≤ x ∧ x < b + l) → u.readByte x = t.readByte x)
    ∧ (b ≤ a ∨ a + l ≤ b →
        ∀ j, j < l → u.readByte (b + j) = t.readByte (a + j) ^^^ keystreamByte s s.nonceBytes c j) := by
  subst hsrc hdst hlen hctr
  obtain ⟨v, w, hexec, hw, -, hend, hframe, hexact⟩ := ctrTransformsTheMessage t hset.idle (hset.keyValid.trans hk)
    ((hset.fits_iff _ _).mpr hin) ((hset.fits_iff _ _).mpr hout) hn
  obtain rfl : u = w := by rw [hu, hw, runOf_next _ hexec]
  refine ⟨hset.of_agree_finished hend, (congrArg State.len hend :),
    ⟨(congrArg State.ctrLo hend :), (congrArg State.ctrHi hend :)⟩, hframe, fun hl j hj => ?_⟩
  rw [hexact hl j hj, hset.keystream]

/-! ## CTR twice (R146 (a)) -/

/-- Settles O34: the second CTR has the first one's setting and first index, so it XORs the same keystream. -/
theorem ctrIsAnInvolution : Obligations.CtrIsAnInvolution := by
  unfold Obligations.CtrIsAnInvolution
  intro s dst hb hk hsrc hmid hdst hn hl1 hl2 j hj
  obtain ⟨hset, hlen, -, -, hfirst⟩ := runOf_ctr (.refl hb) hk rfl rfl rfl rfl hsrc hmid hn rfl
  generalize runOf (blockCount s.len.toNat + 1) .ctr s = v at hset hlen hfirst ⊢
  obtain ⟨-, -, -, -, hsecond⟩ := runOf_ctr (t := { v with src := s.dst, dst := dst, ctrLo := s.ctrLo, ctrHi := s.ctrHi })
    (c := s.ctr64) ⟨hset.idle, hset.params, hset.keyValid, hset.liveKey, hset.nonce⟩ hk rfl rfl
    (congrArg BitVec.toNat hlen) rfl hmid hdst hn rfl
  have hagain : State.readByte _ (dst.toNat + j) = v.readByte (s.dst.toNat + j) ^^^ _ := hsecond hl2 j hj
  rw [hagain, hfirst hl1 j hj, BitVec.xor_assoc, BitVec.xor_self, BitVec.xor_zero]

/-! ## CTR in two segments (R134 (c)) -/

/-- `16 m` bytes further on is `m` indices further on. -/
theorem keystreamByte_segment (s : State) (nonce : List Byte) (c m j : Nat) :
    keystreamByte s nonce c (16 * m + j) = keystreamByte s nonce (c + m) j := by
  rw [keystreamByte, keystreamByte, Nat.mul_add_mod, Nat.mul_add_div (by decide), Nat.add_assoc]

theorem blockCount_mul_sixteen (m : Nat) : blockCount (16 * m) = m := by unfold blockCount; omega

theorem blockCount_sub_mul_sixteen (l m : Nat) : blockCount (l - 16 * m) = blockCount l - m := by unfold blockCount; omega

/-- CTR64 is a number modulo 2^64 (R130). -/
theorem ctr64_of_ofNat {s : State} {n : Nat} (hlo : s.ctrLo = BitVec.ofNat 32 n) (hhi : s.ctrHi = BitVec.ofNat 32 (n / 2 ^ 32)) :
    s.ctr64 = n % 2 ^ 64 := by
  rw [State.ctr64, hlo, hhi, BitVec.toNat_ofNat, BitVec.toNat_ofNat]
  omega

/-- CTR64's words depend on the number modulo 2^64. -/
theorem ofNat_halves_congr {m n : Nat} (h : m % 2 ^ 64 = n % 2 ^ 64) :
    BitVec.ofNat 32 m = BitVec.ofNat 32 n ∧ BitVec.ofNat 32 (m / 2 ^ 32) = BitVec.ofNat 32 (n / 2 ^ 32) := by
  constructor <;> apply BitVec.eq_of_toNat_eq <;> simp only [BitVec.toNat_ofNat] <;> omega

/-- The state between the segments, its operands set for the second one. -/
def secondSegment (v s : State) (m : Nat) : State :=
  { v with
    len := BitVec.ofNat 32 (s.len.toNat - 16 * m)
    src := BitVec.ofNat 32 (s.src.toNat + 16 * m)
    dst := BitVec.ofNat 32 (s.dst.toNat + 16 * m) }

/-- An offset or a length inside BUF fits a register. -/
theorem ofNat_toNat_of_le_bufBytes {p : Params} {n : Nat} (h : n ≤ p.bufBytes) : (BitVec.ofNat 32 n).toNat = n := by
  have := bufBytes_le p
  rw [BitVec.toNat_ofNat, Nat.mod_eq_of_lt (by omega)]

/-- The first segment: its first index is CTR64, and CTR64 is then `m` further, modulo 2^64. -/
theorem runOf_ctr_first {s v : State} {m : Nat} (hb : s.status.busy = false) (hk : s.status.keyValid = true)
    (hsrc : fits s s.src.toNat s.len.toNat) (hdst : fits s s.dst.toNat s.len.toNat)
    (hn : blockCount s.len.toNat = 0 ∨ s.ctr64 + blockCount s.len.toNat - 1 < 2 ^ 64)
    (hdisj : s.src.toNat + s.len.toNat ≤ s.dst.toNat ∨ s.dst.toNat + s.len.toNat ≤ s.src.toNat)
    (hm : 16 * m ≤ s.len.toNat) (hv : v = runOf (m + 1) .ctr { s with len := BitVec.ofNat 32 (16 * m) }) :
    SameSetting v s ∧ v.ctr64 = (s.ctr64 + m) % 2 ^ 64
    ∧ (∀ x, ¬ (s.dst.toNat ≤ x ∧ x < s.dst.toNat + 16 * m) → v.readByte x = s.readByte x)
    ∧ ∀ j, j < 16 * m →
        v.readByte (s.dst.toNat + j) = s.readByte (s.src.toNat + j) ^^^ keystreamByte s s.nonceBytes s.ctr64 j := by
  unfold fits at hsrc hdst
  have hmcount : m ≤ blockCount s.len.toNat := by unfold blockCount; omega
  have hlen : (BitVec.ofNat 32 (16 * m)).toNat = 16 * m := ofNat_toNat_of_le_bufBytes (p := s.params) (by omega)
  obtain ⟨hset, -, ⟨hlo, hhi⟩, hout, hin⟩ := runOf_ctr (s := s) (t := { s with len := BitVec.ofNat 32 (16 * m) })
    (a := s.src.toNat) (b := s.dst.toNat) (c := s.ctr64) ⟨hb, rfl, rfl, rfl, rfl⟩ hk rfl rfl hlen rfl
    (by unfold fits; omega) (by unfold fits; omega) (by rw [blockCount_mul_sixteen]; omega)
    (hv.trans (by rw [blockCount_mul_sixteen]))
  rw [blockCount_mul_sixteen] at hlo hhi
  exact ⟨hset, ctr64_of_ofNat hlo hhi, hout, hin (by omega)⟩

/-- Two segments leave what `runOf_ctr` says of the whole message: the second begins where the first ended, in BUF and in the
keystream, and the ranges being disjoint its input is still the message's. -/
theorem runOf_ctr_segments {s u : State} {m : Nat} (hb : s.status.busy = false) (hk : s.status.keyValid = true)
    (hsrc : fits s s.src.toNat s.len.toNat) (hdst : fits s s.dst.toNat s.len.toNat)
    (hn : blockCount s.len.toNat = 0 ∨ s.ctr64 + blockCount s.len.toNat - 1 < 2 ^ 64)
    (hdisj : s.src.toNat + s.len.toNat ≤ s.dst.toNat ∨ s.dst.toNat + s.len.toNat ≤ s.src.toNat)
    (hm : 16 * m ≤ s.len.toNat)
    (hu : u = runOf (blockCount (s.len.toNat - 16 * m) + 1) .ctr
      (secondSegment (runOf (m + 1) .ctr { s with len := BitVec.ofNat 32 (16 * m) }) s m)) :
    (u.ctrLo = BitVec.ofNat 32 (s.ctr64 + blockCount s.len.toNat)
      ∧ u.ctrHi = BitVec.ofNat 32 ((s.ctr64 + blockCount s.len.toNat) / 2 ^ 32))
    ∧ (∀ x, ¬ (s.dst.toNat ≤ x ∧ x < s.dst.toNat + s.len.toNat) → u.readByte x = s.readByte x)
    ∧ ∀ j, j < s.len.toNat →
        u.readByte (s.dst.toNat + j) = s.readByte (s.src.toNat + j) ^^^ keystreamByte s s.nonceBytes s.ctr64 j := by
  obtain ⟨hset, hctr, hout, hin⟩ := runOf_ctr_first hb hk hsrc hdst hn hdisj hm rfl
  generalize runOf (m + 1) .ctr { s with len := BitVec.ofNat 32 (16 * m) } = v at hu hset hctr hout hin
  unfold fits at hsrc hdst
  have hcount := blockCount_sub_mul_sixteen s.len.toNat m
  have hmcount : m ≤ blockCount s.len.toNat := by unfold blockCount; omega
  have hword : ∀ n, n ≤ s.params.bufBytes → (BitVec.ofNat 32 n).toNat = n := fun n => ofNat_toNat_of_le_bufBytes
  obtain ⟨-, -, ⟨hlo', hhi'⟩, hout', hin'⟩ := runOf_ctr (s := s) (t := secondSegment v s m)
    ⟨hset.idle, hset.params, hset.keyValid, hset.liveKey, hset.nonce⟩ hk (hword _ (by omega)) (hword _ (by omega))
    (hword _ (by omega)) hctr (by unfold fits; omega) (by unfold fits; omega) (by rw [hcount]; omega) hu
  rw [hcount] at hlo' hhi'
  obtain ⟨hmodLo, hmodHi⟩ := ofNat_halves_congr (m := (s.ctr64 + m) % 2 ^ 64 + (blockCount s.len.toNat - m))
    (n := s.ctr64 + blockCount s.len.toNat) (by omega)
  refine ⟨⟨hlo'.trans hmodLo, hhi'.trans hmodHi⟩, fun x hx => (hout' x (by omega)).trans (hout x (by omega)), fun j hj => ?_⟩
  by_cases hjm : j < 16 * m
  · exact (hout' _ (by omega)).trans (hin j hjm)
  · obtain ⟨i, rfl⟩ := Nat.exists_eq_add_of_le (Nat.le_of_not_lt hjm)
    have hnowrap : (s.ctr64 + m) % 2 ^ 64 = s.ctr64 + m := Nat.mod_eq_of_lt (by unfold blockCount at hn hmcount; omega)
    have hinput : (secondSegment v s m).readByte (s.src.toNat + 16 * m + i) = s.readByte (s.src.toNat + 16 * m + i) :=
      hout _ (by omega)
    rw [keystreamByte_segment, ← Nat.add_assoc, ← Nat.add_assoc, hin' (by omega) i (by omega), hinput, hnowrap]

/-- Settles O35: both leave the same CTR64 and the same bytes, inside the output range and outside it. -/
theorem ctrSegmentsLikeOneMessage : Obligations.CtrSegmentsLikeOneMessage := by
  unfold Obligations.CtrSegmentsLikeOneMessage
  intro s m hb hk hsrc hdst hn hdisj hm one two hone htwo
  obtain ⟨-, -, ⟨hlo, hhi⟩, hout, hin⟩ := runOf_ctr (.refl hb) hk rfl rfl rfl rfl hsrc hdst hn hone
  obtain ⟨⟨hlo', hhi'⟩, hout', hin'⟩ := runOf_ctr_segments hb hk hsrc hdst hn hdisj hm htwo
  refine ⟨fun x => ?_, by rw [hlo', hlo], by rw [hhi', hhi]⟩
  by_cases hx : s.dst.toNat ≤ x ∧ x < s.dst.toNat + s.len.toNat
  · obtain ⟨j, rfl⟩ := Nat.exists_eq_add_of_le hx.1
    rw [hin' j (by omega), hin (by omega) j (by omega)]
  · rw [hout' x hx, hout x hx]

end Sys2Proof.Proofs
end

section
/-! PROOF. CTRE and CTRD to the last register and BUF byte (43_keystream.md R147, R149): how many steps they take, and what they leave
outside their outputs. -/

namespace Sys2Proof.Proofs
open Sys2Proof.Machine Sys2Proof.Claims

/-- A latched command with a frame step runs for its block count and two steps more, and not less (R108). -/
theorem turns_busy_of_frame {t : State} {n : Nat} (hb : t.status.busy = true) (hp : t.seq.phase = .frame)
    (h0 : t.progIdx = 0#32) (hn : t.progCnt.toNat = n) : ∀ k, k ≤ n + 1 → (turns k t).status.busy = true := by
  have hleft : stepsLeft t = n + 2 := by
    rw [stepsLeft_frame hp, h0, hn]
    rfl
  exact fun k hk => (turns_complete (n + 2) hb hleft).1 k (by omega)

/-! ## CTRE (R147) -/

theorem ctreBlocks_progCnt_toNat (s : State) : (ctreBlocks s).progCnt.toNat = blockCount s.len.toNat :=
  ofNat_blockCount_toNat s.len.isLt

/-- The blocks' output begins after the nonce. -/
theorem ctreBlocks_dst_toNat {s : State} (h : fits s s.dst.toNat (8 + s.len.toNat)) :
    (ctreBlocks s).seq.dst.toNat = s.dst.toNat + 8 :=
  add_eight_toNat (s := s) (w := s.dst) (by unfold fits at h ⊢; omega)

theorem turns_latchCtre (s : State) : turns (blockCount s.len.toNat + 2) (latchCtre Config.bc s.beginAccept)
    = turns ((ctreBlocks s).progCnt.toNat + 1) (ctreBlocks s) := by
  rw [turns_frame _ rfl rfl, ctreBlocks_progCnt_toNat, ctreBlocks]

/-- Outside its frame a CTRE writes nothing, whatever the overlap of the ranges. -/
theorem turns_latchCtre_readByte {s : State} (h : fits s s.dst.toNat (8 + s.len.toNat)) {a : Nat}
    (ha : ¬ (s.dst.toNat ≤ a ∧ a < s.dst.toNat + (8 + s.len.toNat))) :
    (turns (blockCount s.len.toNat + 2) (latchCtre Config.bc s.beginAccept)).readByte a = s.readByte a := by
  obtain ⟨-, hframe, -⟩ := blocks_finish_framed (s := ctreBlocks s) (.inl rfl) rfl rfl rfl (ctreBlocks_progCnt_toNat s)
    (turns_latchCtre s)
  have hlen : (ctreBlocks s).seq.len.toNat = s.len.toNat := rfl
  rw [ctreBlocks_dst_toNat h, hlen] at hframe
  rw [hframe a (by omega), ctreBlocks_readByte, if_neg (by omega)]

/-- Settles O21: the accept latches, the frame step writes the nonce, and the block steps and the finish step write the rest of the
frame. -/
theorem ctreWritesTheFrame : Obligations.CtreWritesTheFrame := by
  unfold Obligations.CtreWritesTheFrame
  intro s hb hk hsrc hdst
  have hexec : exec .ctre s = .next (latchCtre Config.bc s.beginAccept) := exec_latch hb (checkCtre_none.mpr ⟨hk, hsrc, hdst⟩)
  obtain ⟨hend, hnonce, hexact⟩ := runOf_ctre hb hk hsrc hdst rfl
  rw [runOf_next _ hexec] at hend hnonce hexact
  exact ⟨_, _, hexec, rfl, turns_busy_of_frame rfl rfl rfl (ctreBlocks_progCnt_toNat s), hend, hnonce,
    fun a ha => turns_latchCtre_readByte hdst ha, hexact⟩

/-! ## CTRD (R149) -/

theorem ctrdBlocks_progCnt_toNat (s : State) : (ctrdBlocks s).progCnt.toNat = blockCount (s.len.toNat - 8) :=
  ofNat_blockCount_toNat (Nat.lt_of_le_of_lt (Nat.sub_le _ _) s.len.isLt)

theorem ctrdBlocks_len_toNat {s : State} (h : 8 ≤ s.len.toNat) : (ctrdBlocks s).seq.len.toNat = s.len.toNat - 8 :=
  sub_eight_toNat h

theorem turns_latchCtrd (s : State) : turns (blockCount (s.len.toNat - 8) + 2) (latchCtrd Config.bc s.beginAccept)
    = turns ((ctrdBlocks s).progCnt.toNat + 1) (ctrdBlocks s) := by
  rw [turns_frame _ rfl rfl, ctrdBlocks_progCnt_toNat, ctrdBlocks]

/-- Besides the progress and the outcome a CTRD moves NONCE and its output range alone, whatever the overlap of the ranges. -/
theorem turns_latchCtrd_frame {s u : State} (h8 : 8 ≤ s.len.toNat)
    (hu : u = turns (blockCount (s.len.toNat - 8) + 2) (latchCtrd Config.bc s.beginAccept)) :
    agree u { finished s (blockCount (s.len.toNat - 8)) with buf := u.buf, nonce0 := u.nonce0, nonce1 := u.nonce1 }
    ∧ ∀ a, ¬ (s.dst.toNat ≤ a ∧ a < s.dst.toNat + (s.len.toNat - 8)) → u.readByte a = s.readByte a := by
  have hlen := ctrdBlocks_len_toNat h8
  obtain ⟨hend, hframe, -⟩ := blocks_finish_framed (s := ctrdBlocks s) (.inr rfl) rfl rfl rfl
    (by rw [ctrdBlocks_progCnt_toNat, hlen]) (hu.trans (turns_latchCtrd s))
  rw [hlen] at hframe
  exact ⟨by rw [hend]; rfl, hframe⟩

/-- Settles O22: the accept latches, the frame step loads the nonce, and the block steps and the finish step write the output. -/
theorem ctrdReadsTheFrame : Obligations.CtrdReadsTheFrame := by
  unfold Obligations.CtrdReadsTheFrame
  intro s hb hk h8 hsrc hdst
  have hexec : exec .ctrd s = .next (latchCtrd Config.bc s.beginAccept) :=
    exec_latch hb (checkCtrd_none.mpr ⟨hk, h8, hsrc, hdst⟩)
  have hlen : s.len.toNat = s.len.toNat - 8 + 8 := (Nat.sub_add_cancel h8).symm
  obtain ⟨hnonce, hexact⟩ := runOf_ctrd hb hk hlen (hlen ▸ hsrc) hdst rfl
  rw [runOf_next _ hexec, ← hlen] at hexact
  rw [runOf_next _ hexec] at hnonce
  obtain ⟨hend, hframe⟩ := turns_latchCtrd_frame h8 rfl
  exact ⟨_, _, hexec, rfl, turns_busy_of_frame rfl rfl rfl (ctrdBlocks_progCnt_toNat s), hend, hnonce, hframe, hexact⟩

end Sys2Proof.Proofs
end

section
/-! PROOF. The host's accesses (10_state.md R23 to R33; 20_memory.md R60 to R69; 30_encoding.md R97; 40_sequencer.md R106): register
accesses, BUF accesses, and which accesses the window does not define. -/

namespace Sys2Proof.Proofs
open Sys2Proof.Machine Sys2Proof.Claims

/-! ## Register accesses (R23, R24, R26 to R33) -/

/-- Settles O37: the register table is the model's register read, and a read moves nothing but the data it returns. -/
theorem registerReadsReturnTheRegisterMap : Obligations.RegisterReadsReturnTheRegisterMap := by
  unfold Obligations.RegisterReadsReturnTheRegisterMap
  exact fun _ _ _ hk h => step_readRegister hk h

/-- The low 6 bits of a word, as PWDLEN holds them (R29). -/
theorem ofNat_mod_sixtyFour (w : Word) : BitVec.ofNat 6 (w.toNat % 64) = w.extractLsb' 0 6 := by
  apply BitVec.eq_of_toNat_eq
  simp

/-- While BUSY = 0 the table of operand writes is the graph of the model's register write over its offsets. -/
theorem operandWrites_eq_map (w : Word) {s : State} (hb : s.status.busy = false) :
    operandWrites w s = operandOffsets.map fun off => (off, writeReg (regAt (off / 4)) w s) := by
  have hs : s = { s with status := { s.status with busy := false } } := by rw [← hb]
  rw [hs]
  unfold operandWrites
  rw [ofNat_mod_sixtyFour]
  rfl

/-- Settles O38: the step is the register write at the offset, and the table lists what it leaves. -/
theorem idleOperandWritesTakeEffect : Obligations.IdleOperandWritesTakeEffect := by
  unfold Obligations.IdleOperandWritesTakeEffect
  intro s t off w rest h hb hm
  obtain ⟨ho, h4, hr⟩ := operandWrites_register hm
  rw [operandWrites_eq_map w (s := consumed s rest) hb] at hm
  obtain ⟨off', _, he⟩ := List.mem_map.mp hm
  cases he
  exact step_writeRegister h ho h4 fun hc => by simp [hc, isOperand] at hr

/-- A bit that a one clears. -/
theorem and_not_eq_ite (x b : Bool) : (x && !b) = if b then false else x := by cases b <;> simp

/-- Settles O40: the step is the STATUS write, whose bits each clear what they name. -/
theorem statusIsWriteOneToClear : Obligations.StatusIsWriteOneToClear := by
  unfold Obligations.StatusIsWriteOneToClear
  intro s w rest h
  rw [step_writeStatus h, Status.writeOneToClear, and_not_eq_ite, and_not_eq_ite, and_not_eq_ite]

/-! ## BUF accesses (R63, R69) -/

/-- Byte `k` of a value of any width. -/
theorem extractLsb'_eq_digit {n : Nat} (x : BitVec n) (k : Nat) :
    x.extractLsb' (8 * k) 8 = BitVec.ofNat 8 (x.toNat / 256 ^ k) := by
  apply BitVec.eq_of_toNat_eq
  simp [Nat.shiftRight_eq_div_pow, pow_mul]

/-- A BUF write moves the bytes of its value, the least significant first. -/
theorem bufAction_write {op : BusOp} {n v : Nat} (h : writeValue op = some (n, v)) (a : Nat) :
    op.bytes = n ∧ ∃ bs, bufAction a op = .writeBuf a bs ∧ bs.length = n
      ∧ ∀ k, k < n → bs.getD k 0#8 = BitVec.ofNat 8 (v / 256 ^ k) := by
  cases op <;> cases h
  case write8 v =>
    refine ⟨rfl, _, rfl, rfl, fun k hk => ?_⟩
    obtain rfl : k = 0 := by omega
    simp
  case write16 v =>
    refine ⟨rfl, _, rfl, rfl, fun k hk => ?_⟩
    have : k = 0 ∨ k = 1 := by omega
    rcases this with rfl | rfl
    · exact extractLsb'_eq_digit v 0
    · exact extractLsb'_eq_digit v 1
  case write32 v => exact ⟨rfl, _, rfl, rfl, fun k hk => enc32_getD .le v k hk⟩

theorem bufAction_read {op : BusOp} {n : Nat} (h : readWidth op = some n) (a : Nat) :
    op.bytes = n ∧ bufAction a op = .readBuf a n ∧ (n = 1 ∨ n = 2 ∨ n = 4) := by
  cases op <;> cases h <;> exact ⟨rfl, rfl, by decide⟩

/-- The number that up to 4 bytes of BUF make, the least significant first. -/
theorem fromLe32_memRead (s : State) (a : Nat) {n : Nat} (hn : n = 1 ∨ n = 2 ∨ n = 4) : fromLe32 (s.memRead a n) =
    BitVec.ofNat 32 ((List.range n).map fun k => 256 ^ k * (s.readByte (a + k)).toNat).sum := by
  have hnum : (fromLe32 (s.memRead a n)).toNat
      = ((List.range n).map fun k => 256 ^ k * (s.readByte (a + k)).toNat).sum := by
    rw [fromLe32_toNat]
    rcases hn with rfl | rfl | rfl <;> simp [State.memRead, List.range_succ, Nat.add_assoc]
  rw [← hnum, BitVec.ofNat_toNat, BitVec.setWidth_eq]

/-- Settles O42: the step is the BUF action, whose bytes are the value's digits to base 256. -/
theorem hostBufAccessIsLittleEndian : Obligations.HostBufAccessIsLittleEndian := by
  unfold Obligations.HostBufAccessIsLittleEndian
  refine ⟨fun s op a n v rest hb hv hal hr hi => ?_, fun s op a n rest hb hw hal hr hi => ?_⟩
  · obtain ⟨rfl, bs, hact, hlen, hbytes⟩ := bufAction_write hv a
    have hwrite : writeBuf a bs (consumed s rest) = (consumed s rest).memWrite a bs := if_neg (by simp [consumed, hb])
    refine ⟨(consumed s rest).memWrite a bs, ?_, rfl, fun x => ?_⟩
    · rw [step_buf hi hal hr, hact, ← hwrite]
      rfl
    · rw [readByte_memWrite, hlen]
      split
      · exact hbytes _ (by omega)
      · rfl
  · obtain ⟨rfl, hact, hn⟩ := bufAction_read hw a
    rw [step_buf hi hal hr, hact, ← fromLe32_memRead s a hn, runAction, readBuf, if_neg (by simp [hb])]
    rfl

/-- A draw is cut to the access's width. -/
theorem drawOfWidth_toNat_lt {n : Nat} (hn : n = 1 ∨ n = 2 ∨ n = 4) (d : Word) : (drawOfWidth n d).toNat < 256 ^ n := by
  rcases hn with rfl | rfl | rfl
  · exact (BitVec.toNat_and d 0xFF#32).trans_lt (Nat.and_lt_two_pow _ (n := 8) (by decide))
  · exact (BitVec.toNat_and d 0xFFFF#32).trans_lt (Nat.and_lt_two_pow _ (n := 16) (by decide))
  · exact d.isLt

/-- Settles O43: the step is the BUF action, which while BUSY = 1 is dropped or draws its value. -/
theorem hostBufAccessWhileBusy : Obligations.HostBufAccessWhileBusy := by
  unfold Obligations.HostBufAccessWhileBusy
  refine fun s op a n rest hb hal hr hi => ⟨fun v hv => ?_, fun hw => ?_⟩
  · obtain ⟨rfl, bs, hact, -, -⟩ := bufAction_write hv a
    rw [step_buf hi hal hr, hact, runAction, writeBuf, ifIdle, if_pos hb]
    rfl
  · obtain ⟨rfl, hact, hn⟩ := bufAction_read hw a
    refine ⟨(drawOfWidth op.bytes (Config.busyRead s.draws)).toNat, _, drawOfWidth_toNat_lt hn _,
      (step_buf hi hal hr).trans (congrArg (runAction · _) hact), ?_⟩
    rw [readBuf, if_pos hb, BitVec.ofNat_toNat, BitVec.setWidth_eq]

/-! ## The window (R60, R64, R65) -/

theorem regAction_none_iff (r : Reg) (op : BusOp) : regAction r op = none ↔ op.bytes ≠ 4 := by
  cases op <;> simp [regAction, BusOp.bytes]

/-- The accesses at a window offset that are bus errors: a reserved offset, or one past BUF, a register access that is narrow or
misaligned, a BUF access that is misaligned or reaches past BUF. -/
theorem decodeAccess_none_iff (p : Params) (op : BusOp) (off : Nat) : decodeAccess p op off = none ↔
    (0x100 ≤ off ∧ off < 0x80000) ∨ 0x80000 + p.bufBytes ≤ off
    ∨ (off < 0x100 ∧ (op.bytes ≠ 4 ∨ off % 4 ≠ 0))
    ∨ (0x80000 ≤ off ∧ (off % op.bytes ≠ 0 ∨ 0x80000 + p.bufBytes < off + op.bytes)) := by
  have hn : 0 < op.bytes := by cases op <;> exact Nat.zero_lt_succ _
  unfold decodeAccess
  split
  · split
    · rw [regAction_none_iff]
      omega
    · simp only [true_iff]
      omega
  · split
    · simp only [reduceCtorEq, false_iff]
      omega
    · simp only [true_iff]
      omega

theorem runAction_next (act : HostAction) (s : State) : ∃ t, runAction act s = .next t := by
  cases act
  case writeReg r w =>
    by_cases hr : r = .cmd
    · subst hr
      simp only [runAction, writeCmd]
      split
      · exact ⟨_, rfl⟩
      · split
        · exact exec_next _ _
        · exact ⟨_, rfl⟩
    · exact ⟨_, runAction_writeReg hr w s⟩
  all_goals exact ⟨_, rfl⟩

theorem hostAccess_undefined {s : State} {acc : BusAccess} {off : Nat} (hw : windowOffset s.params acc.addr = some off)
    (hd : decodeAccess s.params acc.op off = none) :
    hostAccess acc s = .fault (.busError off (8 * acc.op.bytes) acc.op.isWrite) := by simp [hostAccess, hw, hd]

theorem hostAccess_defined {s : State} {acc : BusAccess} {off : Nat} {act : HostAction}
    (hw : windowOffset s.params acc.addr = some off) (hd : decodeAccess s.params acc.op off = some act) :
    hostAccess acc s = runAction act s := by simp [hostAccess, hw, hd]

theorem hostAccess_outside {s : State} {acc : BusAccess} (hw : windowOffset s.params acc.addr = none) :
    hostAccess acc s = .next { s with hostData := none } := by simp [hostAccess, hw]

/-- A step that is an access in the window faults exactly when the access is not defined. -/
theorem step_window {s : State} {op : BusOp} {off : Nat} {rest : List Input} (ho : off < 0x100000)
    (hi : s.inputs = .access ⟨s.params.base + off, op⟩ :: rest) :
    (decodeAccess s.params op off = none ∧ step s = .fault (.busError off (8 * op.bytes) op.isWrite))
    ∨ (decodeAccess s.params op off ≠ none ∧ ∃ t, step s = .next t) := by
  have hw := windowOffset_base s.params ho
  rw [step_cons hi, takeInput]
  cases hd : decodeAccess s.params op off with
  | none => exact .inl ⟨rfl, hostAccess_undefined (s := { s with inputs := rest }) hw hd⟩
  | some act =>
    rw [hostAccess_defined (s := { s with inputs := rest }) hw hd]
    exact .inr ⟨nofun, runAction_next act _⟩

/-- Settles O44: by whether the access decodes to an action; no action faults. -/
theorem busErrorsAreExactlyTheUndefinedAccesses : Obligations.BusErrorsAreExactlyTheUndefinedAccesses := by
  unfold Obligations.BusErrorsAreExactlyTheUndefinedAccesses
  intro s op off rest ho hi
  rw [← decodeAccess_none_iff]
  rcases step_window ho hi with ⟨hd, hs⟩ | ⟨hd, t, hs⟩
  · exact ⟨iff_of_true hd hs, fun _ => hs⟩
  · exact ⟨iff_of_false hd (by simp [hs]), fun ⟨f, hf⟩ => by simp [hs] at hf⟩

/-- Settles O45: the address has no window offset. -/
theorem accessOutsideTheWindowChangesNothing : Obligations.AccessOutsideTheWindowChangesNothing := by
  unfold Obligations.AccessOutsideTheWindowChangesNothing
  intro s acc rest hi ha
  rw [step_cons hi]
  exact hostAccess_outside (s := { s with inputs := rest }) (windowOffset_none ha)

/-! ## The assembly's register statements (30_encoding.md R97) -/

/-- The offset of a named register is that of its word in the window. -/
theorem regOffset_spec (r : Reg) : regOffset r < 0x100 ∧ regOffset r % 4 = 0
    ∧ (r ≠ .reserved → regAt (regOffset r / 4) = r) := by
  cases r
  case pwd j | key j | ks j => revert j; decide
  all_goals decide

/-- Settles O46: the address is BASE and the register's offset, which decodes to that register. -/
theorem assemblyReachesTheNamedRegister : Obligations.AssemblyReachesTheNamedRegister := by
  unfold Obligations.AssemblyReachesTheNamedRegister
  intro p r v hr
  obtain ⟨ho, h4, hreg⟩ := regOffset_spec r
  have hw : windowOffset p (p.base + regOffset r) = some (regOffset r) := windowOffset_base p (by omega)
  have hd : ∀ op, decodeAccess p op (regOffset r) = regAction r op := fun op => by
    rw [decodeAccess, if_pos ho, if_pos h4, hreg hr]
  exact ⟨regOffset r, ho, hw, hw, hd _, hd _⟩

/-! ## A command's word written to CMD (40_sequencer.md R106) -/

/-- A row of the opcode table decodes as its word does. -/
theorem decode_of_decodeTableWord {w : Nat} {i : Instr} (h : decodeTableWord 32 w = some i) :
    decode (BitVec.ofNat 32 (w % 2 ^ 32)) = .ok i := by
  have hw : w % 2 ^ 32 < 2 ^ 32 := Nat.mod_lt _ (by decide)
  rw [decodeTableWord, if_pos hw, decodeBytes, if_pos (le32_length _), fromLe32_le32] at h
  cases hd : decode (BitVec.ofNat 32 (w % 2 ^ 32)) <;> rw [hd] at h <;> cases h
  rfl

theorem step_cmdWrite {s : State} {w : Word} {i : Instr} {rest : List Input} (hi : s.inputs = cmdWrite s.params w :: rest)
    (hb : s.status.busy = false) (hd : decode w = .ok i) : step s = exec i (consumed s rest) :=
  (step_writeCmd hi).trans (writeCmd_command (s := consumed s rest) hb hd)

/-- Settles O4: the step is the write of CMD, and the decoder reads the command from its word. -/
theorem stepRunsTheDecodedCommand : Obligations.StepRunsTheDecodedCommand := by
  unfold Obligations.StepRunsTheDecodedCommand
  refine ⟨fun s w i rest hi hb hd => step_cmdWrite hi hb hd, fun s w i h => ?_⟩
  exact step_cmdWrite (s := s.withFetchWord 32 w) rfl rfl (decode_of_decodeTableWord h)

/-- Settles O1: six words, decoded. -/
theorem commandWordsDecode : Obligations.CommandWordsDecode := by
  unfold Obligations.CommandWordsDecode
  decide

end Sys2Proof.Proofs
end

section
/-! PROOF. Rules of the whole machine (10_state.md R33; 20_memory.md R62; 40_sequencer.md R111; 42_counter.md R126;
70_reset_and_hazards.md R190, R204): which steps change KEY and NONCE, power-up, and the end of a run. -/

namespace Sys2Proof.Proofs
open Sys2Proof.Machine Sys2Proof.Claims

/-! ## Which steps change KEY (R33, R91) -/

@[simp] theorem frameStep_key (s : State) : s.frameStep.key = s.key := by
  rcases frameStep_cases s with ⟨_, h⟩ | ⟨_, h⟩ | ⟨_, _, h⟩ <;> simp [h]

@[simp] theorem blockStep_key (bc : BlockCipher) (s : State) : (s.blockStep bc).key = s.key := rfl

/-- No other finish action than KDF's and ZERO's writes KEY. -/
theorem finishStep_key (bc : BlockCipher) (s : State) :
    (s.finishStep bc).key = s.key ∨ s.seq.op = .kdf ∨ s.seq.op = .zero := by
  rw [State.finishStep, complete_key]
  cases s.seq.op
  case kdf => exact .inr (.inl rfl)
  case zero => exact .inr (.inr rfl)
  all_goals exact .inl rfl

theorem engineTurn_key (s : State) :
    (engineTurn s).key = s.key ∨ finishing s ∧ (s.seq.op = .kdf ∨ s.seq.op = .zero) := by
  rcases engineTurn_cases s with ⟨_, h⟩ | ⟨_, _, h⟩ | ⟨_, _, _, h⟩ | ⟨hb, hp, h⟩ <;> rw [h]
  · exact .inl rfl
  · exact .inl (frameStep_key s)
  · exact .inl (blockStep_key Config.bc s)
  · exact (finishStep_key Config.bc s).imp_right fun ho => ⟨⟨hb, hp⟩, ho⟩

theorem writeCmd_key {w : Word} {s t : State} (h : writeCmd w s = .next t) : t.key = s.key := by
  rcases writeCmd_cases h with ⟨_, rfl⟩ | ⟨_, e, rfl⟩ | ⟨_, i, _, _, rfl⟩
  · rfl
  · simp
  · exact (congrArg State.key (latchOf_acceptFrame i s) :)

/-- A register write that changes KEY is one of a KEYj while BUSY = 0, and leaves no valid key. -/
theorem writeReg_key (r : Reg) (w : Word) (s : State) : (writeReg r w s).key = s.key
    ∨ (∃ j, r = .key j) ∧ s.status.busy = false ∧ (writeReg r w s).status.keyValid = false
      ∧ (writeReg r w s).status.klen = 0#2 := by
  cases r
  case key j =>
    cases hb : s.status.busy with
    | true => exact .inl (by rw [writeReg_operand_busy rfl w hb])
    | false =>
      rw [writeReg, ifIdle, if_neg (by simp [hb])]
      exact .inr ⟨⟨j, rfl⟩, rfl, rfl, rfl⟩
  all_goals exact .inl (by simp [writeReg, ifIdle, apply_ite])

@[simp] theorem writeBuf_key (a : Nat) (bs : List Byte) (s : State) : (writeBuf a bs s).key = s.key := by
  unfold writeBuf ifIdle
  split <;> rfl

/-- The KEYj are words 24 to 31 of the window (10_state.md R23). -/
theorem regAt_eq_key {k : Nat} (hk : k < 64) {j : Fin 8} (h : regAt k = .key j) : k = 24 + j.val := by
  revert k j; decide

/-- A host access that changes KEY is a KEYj write while BUSY = 0, and leaves no valid key. -/
theorem hostAccess_key {acc : BusAccess} {s t : State} (h : hostAccess acc s = .next t) : t.key = s.key
    ∨ (s.status.busy = false ∧ t.status.keyValid = false ∧ t.status.klen = 0#2
      ∧ ∃ j w, j < 8 ∧ acc = ⟨s.params.base + (0x060 + 4 * j), .write32 w⟩) := by
  rcases hostAccess_cases h with rfl | ⟨v, rfl⟩ | ⟨_, v, rfl⟩ | ⟨w, _, hw⟩ | ⟨k, w, _, hk, ha, rfl⟩ | ⟨a, bs, _, rfl⟩
  · exact .inl rfl
  · exact .inl rfl
  · exact .inl rfl
  · exact .inl (writeCmd_key hw :)
  · refine (writeReg_key (regAt k) w _).imp_right fun ⟨⟨j, hr⟩, hb, hkv, hkl⟩ => ⟨hb, hkv, hkl, j, w, j.isLt, ?_⟩
    rw [ha, regAt_eq_key hk hr, Nat.mul_add]
  · exact .inl (writeBuf_key a bs _)

/-- Settles O56: by whose turn the step is. -/
theorem keyChangesOnlyByHostKdfZeroAndReset : Obligations.KeyChangesOnlyByHostKdfZeroAndReset := by
  unfold Obligations.KeyChangesOnlyByHostKdfZeroAndReset
  intro s t h hkey
  rcases step_cases h with ⟨rest, hi, rfl⟩ | ⟨rest, hi, _⟩ | ⟨rest, hi, _⟩ | ⟨acc, rest, hi, ha⟩
  · rcases engineTurn_key { s with inputs := rest } with hkeep | ⟨hf, ho⟩
    · exact absurd hkeep hkey
    · exact .inr (.inl ⟨rest, hi, hf, ho⟩)
  · exact .inl (.inl ⟨rest, hi⟩)
  · exact .inl (.inr ⟨rest, hi⟩)
  · rcases hostAccess_key ha with hkeep | ⟨hb, hkv, hkl, j, w, hj, rfl⟩
    · exact absurd hkeep hkey
    · exact .inr (.inr ⟨hb, hkv, hkl, j, w, rest, hj, hi⟩)

/-! ## Which steps change NONCE (R126) -/

/-- Of the engine's turns CTRD's frame step alone loads NONCE. -/
theorem engineTurn_nonce (s : State) : ((engineTurn s).nonce0 = s.nonce0 ∧ (engineTurn s).nonce1 = s.nonce1)
    ∨ s.seq.op = .ctrd ∧ s.seq.phase = .frame := by
  rcases engineTurn_cases s with ⟨_, h⟩ | ⟨_, hp, h⟩ | ⟨_, _, _, h⟩ | ⟨_, _, h⟩ <;> rw [h]
  · exact .inl ⟨rfl, rfl⟩
  · rcases frameStep_cases s with ⟨_, e⟩ | ⟨ho, _⟩ | ⟨_, _, e⟩
    · exact .inl (by rw [e]; exact ⟨rfl, rfl⟩)
    · exact .inr ⟨ho, hp⟩
    · exact .inl (by rw [e]; exact ⟨rfl, rfl⟩)
  · exact .inl ⟨rfl, rfl⟩
  · exact .inl (by rw [finishStep_frame]; exact ⟨rfl, rfl⟩)

/-- Settles O57: by whose turn the step is; a host access leaves a running command's NONCE. -/
theorem nonceIsConstantWithinACommand : Obligations.NonceIsConstantWithinACommand := by
  unfold Obligations.NonceIsConstantWithinACommand
  intro s t h hb hne
  rcases step_cases h with ⟨rest, hi, rfl⟩ | ⟨rest, hi, _⟩ | ⟨rest, hi, _⟩ | ⟨acc, rest, _, ha⟩
  · rcases engineTurn_nonce { s with inputs := rest } with ⟨h0, h1⟩ | ⟨ho, hp⟩
    · exact absurd hne (not_or.mpr ⟨not_not_intro h0, not_not_intro h1⟩)
    · exact .inr ⟨rest, hi, ho, hp⟩
  · exact .inl (.inl ⟨rest, hi⟩)
  · exact .inl (.inr ⟨rest, hi⟩)
  · obtain ⟨ht, _⟩ := hostAccess_running (s := { s with inputs := rest }) hb ha
    have h0 : t.nonce0 = s.nonce0 := (congrArg State.nonce0 ht :)
    have h1 : t.nonce1 = s.nonce1 := (congrArg State.nonce1 ht :)
    exact absurd hne (not_or.mpr ⟨not_not_intro h0, not_not_intro h1⟩)

/-! ## Power-up (R62, R190) -/

/-- The registers after a power-up are those after its reset. -/
theorem registerValue_powerUp (s : State) {k : Nat} (hk : k < 64) :
    registerValue s.powerUp (4 * k) = if k = 63 then idValue else 0#32 :=
  registerValue_assertReset s hk

/-- Settles O50: the step is the power-up, after which no BUF byte is written. -/
theorem powerUpDrawsBufAnew : Obligations.PowerUpDrawsBufAnew := by
  unfold Obligations.PowerUpDrawsBufAnew
  intro s rest h
  exact ⟨({ s with inputs := rest } : State).powerUp, step_cons h, fun _ hk => registerValue_powerUp _ hk, rfl, rfl,
    fun _ => rfl, rfl, rfl⟩

/-! ## The run and its end (R111, R204) -/

theorem engineTurn_inputs (s : State) : (engineTurn s).inputs = s.inputs := by
  rcases engineTurn_cases s with ⟨_, h⟩ | ⟨_, _, h⟩ | ⟨_, _, _, h⟩ | ⟨_, _, h⟩ <;> rw [h]
  · rcases frameStep_cases s with ⟨_, e⟩ | ⟨_, e⟩ | ⟨_, _, e⟩ <;> rw [e]
    rfl
  · rfl
  · rw [finishStep_frame]

theorem core_run_succ {s t : State} (h : step s = .next t) (k : Nat) : core.run (k + 1) s = core.run k t := by
  have hstep : core.step s = .next t := h
  simp [Host.Core.run, hstep]

/-- Settles O26: with no turn left a step is an engine turn, which adds none. -/
theorem machineRunIsEngineTurns : Obligations.MachineRunIsEngineTurns := by
  unfold Obligations.MachineRunIsEngineTurns
  intro s k h
  induction k generalizing s with
  | zero => rfl
  | succ k ih =>
    rw [core_run_succ (step_empty h), turns_succ]
    exact ih (engineTurn s) ((engineTurn_inputs s).trans h)

/-- At the end of a run no turn faults, and each is taken off the list. -/
theorem step_next_of_ended {s : State} (h : s.ended) : ∃ t, step s = .next t ∧ t.inputs = s.inputs.tail := by
  cases hi : s.inputs with
  | nil => exact ⟨_, step_empty hi, (engineTurn_inputs s).trans hi⟩
  | cons i rest =>
    rw [step_cons hi]
    cases i with
    | access acc => exact absurd (h.1 _ (hi ▸ List.mem_cons_self)) (by simp)
    | engine => exact ⟨_, rfl, engineTurn_inputs _⟩
    | reset | powerUp => exact ⟨_, rfl, rfl⟩

/-- Settles O59: at the end of a run a step passes, or is a reset or a power-up; none of them starts a command. -/
theorem endOfARunKeepsItsObservation : Obligations.EndOfARunKeepsItsObservation := by
  unfold Obligations.EndOfARunKeepsItsObservation
  intro s h
  have hnext : ∀ acc rest, s.inputs ≠ .access acc :: rest := fun acc rest hi => by
    simpa using h.1 (.access acc) (hi ▸ List.mem_cons_self)
  obtain ⟨t, ht, htail⟩ := step_next_of_ended h
  have hturns : ∀ i ∈ t.inputs, i.isAccess = false := fun i hi => h.1 i (List.mem_of_mem_tail (htail ▸ hi))
  refine ⟨⟨h.2, hnext⟩, t, ht, ?_⟩
  rcases step_ended h ht with ⟨r, rfl⟩ | ⟨r, hi, rfl⟩ | ⟨r, hi, rfl⟩
  · exact ⟨⟨hturns, h.2⟩, fun _ => observation_inputs s r⟩
  · exact ⟨⟨hturns, rfl⟩, fun hr => absurd (.inl ⟨r, hi⟩) hr⟩
  · exact ⟨⟨hturns, rfl⟩, fun hr => absurd (.inr ⟨r, hi⟩) hr⟩

end Sys2Proof.Proofs
end
